-- ==== Sys2Proof/Config.lean ====
section
/-! DEFINITION. What fixes one implementation of NUMEXT-CORE (00_scope.md R5, R6): the limb width, the number of
limbs, every size derived from them, and the platform's free base address. -/

namespace Sys2Proof

/-- The legal limb widths `LIMB_BITS` of R5: 8, 16, 32, 64 or 128 bits. -/
inductive LimbBits where
  | lb8
  | lb16
  | lb32
  | lb64
  | lb128
deriving DecidableEq, Repr

/-- `LB` as a number of bits (R5). -/
def LimbBits.bits : LimbBits → Nat
  | .lb8 => 8
  | .lb16 => 16
  | .lb32 => 32
  | .lb64 => 64
  | .lb128 => 128

/-- The two parameters that fix a NUMEXT-CORE (R5): `LB` and `N`, with `N ≥ 1` (decision D2). -/
structure Params where
  /-- `LIMB_BITS`. -/
  limbBits : LimbBits
  /-- `N`, the number of limbs. -/
  n : Nat
  /-- The lower bound of decision D2. -/
  pos : 0 < n
deriving DecidableEq, Repr

/-- `LB` (R5). -/
abbrev Params.lb (p : Params) : Nat := p.limbBits.bits

/-- `W = N * LB` (R5). -/
abbrev Params.w (p : Params) : Nat := p.n * p.lb

/-- `BYTES = W / 8` (R5). -/
abbrev Params.bytes (p : Params) : Nat := p.w / 8

/-- `NREG = 4*N + 2` (R6). -/
abbrev Params.nreg (p : Params) : Nat := 4 * p.n + 2

/-- `ADDR_BITS`, the least integer with `2^ADDR_BITS ≥ NREG` (R6); `NREG - 1 = 4*N + 1` is at least 5, so that
integer is one more than the index of the highest one bit of `NREG - 1`. -/
abbrev Params.addrBits (p : Params) : Nat := Nat.log2 (4 * p.n + 1) + 1

/-- The document's "8-bit-limb, 32-bit-wide type" (R5), the one that every example and program of the spec uses.
DESIGN CHOICE (log 1): the machine's reset state is this one; the step function takes any `Params`. -/
def Params.n4lb8 : Params := ⟨.lb8, 4, by decide⟩

/-- `BASE`, where the platform places the register space (R59, R241): left open by the spec, so it has no value here
(log 3). No rule of the block depends on it. -/
opaque Config.base : Nat

/-- How a bus address reaches a word offset of the register space is left open too (R59): the bus address of a word
offset, over `Config.base` (log 3). -/
opaque Config.busAddress : Nat → Nat → Nat

end Sys2Proof
end

