-- ==== Sys2Proof/Word.lean ====
section
/-! DEFINITION. The words of the block (00_scope.md R5 to R8): a limb, a W-bit value, a port offset. All are unsigned
(R8); a register's `val` is its `toNat`. -/

namespace Sys2Proof

/-- One limb, one port word, one command word: `LB` bits (R5, R50, R80). -/
abbrev Limb (p : Params) : Type := BitVec p.lb

/-- One W-bit data register (R7, R21): bit 0 the least significant, limb `i` its bits `LB*i + LB - 1` to `LB*i`. -/
abbrev Wide (p : Params) : Type := BitVec p.w

/-- One word offset of the host port, `ADDR_BITS` bits (R50): no offset outside `[0, 2^ADDR_BITS)` exists (R58). -/
abbrev Offset (p : Params) : Type := BitVec p.addrBits

end Sys2Proof
end

