-- ==== Sys2Proof/Syntax.lean ====
section
/-! DEFINITION. The commands of NUMEXT-CORE: one constructor for each row of spec/opcode_table.json (30_encoding.md
R82). No command has an immediate or an operand field (R84), so no constructor has an argument. Beside them the fields
of the one command format, CMD8 (R80). -/

namespace Sys2Proof

/-- The 20 legal commands (R82). -/
inductive Instr where
  /-- ADD, 0x01 (R100). -/
  | add
  /-- SUB, 0x02 (R102). -/
  | sub
  /-- MUL, 0x03 (R120). -/
  | mul
  /-- MULU, 0x04 (R122). -/
  | mulu
  /-- DIVREM, 0x05 (R140). -/
  | divrem
  /-- DIVU, 0x06 (R141). -/
  | divu
  /-- AND, 0x08 (R160). -/
  | and
  /-- OR, 0x09 (R161). -/
  | or
  /-- XOR, 0x0A (R162). -/
  | xor
  /-- NOT, 0x0B (R163). -/
  | not
  /-- SHL, 0x0C (R165). -/
  | shl
  /-- SHR, 0x0D (R166). -/
  | shr
  /-- ROL, 0x0E (R190). -/
  | rol
  /-- ROR, 0x0F (R191). -/
  | ror
  /-- CLZ, 0x10 (R193). -/
  | clz
  /-- CTZ, 0x11 (R194). -/
  | ctz
  /-- POPC, 0x12 (R195). -/
  | popc
  /-- ZCNT, 0x13 (R196). -/
  | zcnt
  /-- ISPOW2, 0x14 (R197). -/
  | ispow2
  /-- NPOW2, 0x15 (R198). -/
  | npow2
deriving DecidableEq, Repr

/-- The fields of a command word (R80, format CMD8); `zx` is absent (0 bits) when `LB = 8`. -/
structure Cmd8 (lb : Nat) where
  /-- Bits 4:0, the operation select. -/
  op : BitVec 5
  /-- Bits 7:5, which must be 000. -/
  z : BitVec 3
  /-- Bits `LB-1`:8, which must be all zero. -/
  zx : BitVec (lb - 8)
deriving DecidableEq, Repr

end Sys2Proof
end

