-- ==== Sys2Proof/WellFormed.lean ====
section
/-! DEFINITION. When the fields of a command word are those of a legal command (30_encoding.md R80, R82, R83). A
command has no operand field, so a constructor of `Instr` carries nothing to check: the checks are on the CMD8 fields,
one for each field of the format. -/

namespace Sys2Proof

/-- R82 lists the operation selects 0x01 to 0x06 and 0x08 to 0x15; R83 names the others. -/
def Cmd8.opListed {lb : Nat} (f : Cmd8 lb) : Bool :=
  (decide (0x01 ≤ f.op.toNat) && decide (f.op.toNat ≤ 0x06)) ||
    (decide (0x08 ≤ f.op.toNat) && decide (f.op.toNat ≤ 0x15))

/-- R80: "`z` and `zx` must be zero, and `op` must be a listed value". -/
def Cmd8.wellFormed {lb : Nat} (f : Cmd8 lb) : Bool :=
  f.opListed && f.z == 0 && f.zx == 0

end Sys2Proof
end

