-- ==== Sys2Proof/Decode.lean ====
section
/-! DEFINITION. From a command word to a command (30_encoding.md R80 to R83), total, rejecting by name; and the
encoder, written from the same table of R82. A rejected word is no fault of the machine: its completion is the one of
60_exceptions.md R232. -/

namespace Sys2Proof

/-- Why a command word is no legal command (R83). -/
inductive IllegalCommand where
  /-- Some bit of `LB-1`:8 is one ("when LB > 8, every value with `zx ≠ 0`"). -/
  | zxNotZero
  /-- `zx` is zero and some bit of 7:5 is one ("0x20 to 0xFF"). -/
  | zNotZero
  /-- `z` and `zx` are zero and `op` is 0x00, 0x07 or 0x16 to 0x1F. -/
  | opNotListed
deriving DecidableEq, Repr

/-- The fields of a command word (R80). -/
def Cmd8.ofWord {lb : Nat} (c : BitVec lb) : Cmd8 lb :=
  { op := c.extractLsb' 0 5, z := c.extractLsb' 5 3, zx := c.extractLsb' 8 (lb - 8) }

/-- R82, row by row: the command's value and the command. -/
def opcodeTable : List (Nat × Instr) :=
  [(0x01, .add), (0x02, .sub), (0x03, .mul), (0x04, .mulu), (0x05, .divrem), (0x06, .divu),
   (0x08, .and), (0x09, .or), (0x0A, .xor), (0x0B, .not), (0x0C, .shl), (0x0D, .shr),
   (0x0E, .rol), (0x0F, .ror)] ++
  [(0x10, .clz), (0x11, .ctz), (0x12, .popc), (0x13, .zcnt), (0x14, .ispow2), (0x15, .npow2)]

/-- The command that R82 lists for an operation select, if it lists one. -/
def decodeOp (op : Nat) : Option Instr :=
  (opcodeTable.find? fun row => row.1 == op).map Prod.snd

/-- One CMD write is one whole command (R81): the command that a command word stands for, or why it is illegal. -/
def decode {lb : Nat} (c : BitVec lb) : Except IllegalCommand Instr :=
  let f := Cmd8.ofWord c
  if f.zx ≠ 0 then .error .zxNotZero
  else if f.z ≠ 0 then .error .zNotZero
  else
    match decodeOp f.op.toNat with
    | some i => .ok i
    | none => .error .opNotListed

/-- The value column of R82. -/
def opValue : Instr → Nat
  | .add => 0x01
  | .sub => 0x02
  | .mul => 0x03
  | .mulu => 0x04
  | .divrem => 0x05
  | .divu => 0x06
  | .and => 0x08
  | .or => 0x09
  | .xor => 0x0A
  | .not => 0x0B
  | .shl => 0x0C
  | .shr => 0x0D
  | .rol => 0x0E
  | .ror => 0x0F
  | .clz => 0x10
  | .ctz => 0x11
  | .popc => 0x12
  | .zcnt => 0x13
  | .ispow2 => 0x14
  | .npow2 => 0x15

/-- The command word of a command (R80, R82): the value of R82, the bits above it zero. -/
def encode (lb : Nat) (i : Instr) : BitVec lb := BitVec.ofNat lb (opValue i)

/-- The mnemonic column of R82, as R87 spells a command in a listing. -/
def Instr.mnemonic : Instr → String
  | .add => "ADD"
  | .sub => "SUB"
  | .mul => "MUL"
  | .mulu => "MULU"
  | .divrem => "DIVREM"
  | .divu => "DIVU"
  | .and => "AND"
  | .or => "OR"
  | .xor => "XOR"
  | .not => "NOT"
  | .shl => "SHL"
  | .shr => "SHR"
  | .rol => "ROL"
  | .ror => "ROR"
  | .clz => "CLZ"
  | .ctz => "CTZ"
  | .popc => "POPC"
  | .zcnt => "ZCNT"
  | .ispow2 => "ISPOW2"
  | .npow2 => "NPOW2"

/-- The command that the decoder reads from the low `nbits` bits of `w`, every bit above them zero. The widest command
word (`LB = 128`) is the one decoded, so that no set bit is lost: a narrower limb reads the same command from the same
value wherever the value fits it. -/
def decodeTableWord (nbits w : Nat) : Option Instr :=
  match decode (BitVec.ofNat 128 (w % 2 ^ nbits)) with
  | .ok i => some i
  | .error _ => none

end Sys2Proof
end

