-- ==== Sys2Proof/Machine/State.lean ====
section
/-! DEFINITION. The state of NUMEXT-CORE as plain data (10_state.md R20 to R32), the host agent at its port
(20_memory.md R50, R57), whose turn it is, the state after reset (R32), and the reasons a step can stop (none that the
spec gives: R50, R236). -/

namespace Sys2Proof.Machine

/-- The fields of STATUS (R24). Its reserved bits `LB-1`:4 always read 0, so they are not stored. -/
structure Status where
  /-- Bit 0: a command is in flight, from its issue (R26) to its completion (R27). -/
  busy : Bool
  /-- Bit 1: the overflow flag of the last completed command. -/
  ovf : Bool
  /-- Bit 2: the last completed command was a division with a zero divisor (R231). -/
  dbz : Bool
  /-- Bit 3: the last completed command was not a legal command (R232). -/
  ill : Bool
deriving DecidableEq, Repr

/-- The registers of the block: the four data registers (R21), STATUS (R24), and the hidden PEND, LOPA and LOPB (R29).
CMD keeps no value (R25). -/
structure Block (p : Params) where
  /-- `OPA`, the first operand. -/
  opa : Wide p
  /-- `OPB`, the second operand. -/
  opb : Wide p
  /-- `RES`, the primary result (R22). -/
  res : Wide p
  /-- `REM`, the secondary result (R23). -/
  rem : Wide p
  /-- `STATUS`. -/
  status : Status
  /-- `PEND`, the command being executed (R29). -/
  pend : Limb p
  /-- `LOPA`, the first operand as latched at issue (R29). -/
  lopa : Wide p
  /-- `LOPB`, the second operand as latched at issue (R29). -/
  lopb : Wide p
deriving DecidableEq, Repr

/-- One access of the host port (R50): each moves exactly one limb-wide word (R56). -/
inductive Access (p : Params) where
  /-- `PortRead(off)`. -/
  | read (off : Offset p)
  /-- `PortWrite(off, v)`. -/
  | write (off : Offset p) (v : Limb p)
deriving DecidableEq, Repr

/-- What moves next: one of the two agents of R20, or the reset input, an external event (R260). -/
inductive Turn where
  /-- The host performs, presents or goes on holding one access. -/
  | host
  /-- The unit's only step, completion (R27), where it is enabled. -/
  | unit
  /-- The reset input is asserted and deasserted (R260). -/
  | reset
deriving DecidableEq, Repr

/-- The whole machine: the parameters of this NUMEXT-CORE (R5), its registers, and the host at its one port (R67). -/
structure State where
  /-- The parameters of R5, which no step changes. -/
  params : Params
  /-- The registers of the block. -/
  block : Block params
  /-- The access that the host has presented and that holds (R57), if there is one. -/
  held : Option (Access params)
  /-- The accesses that the host has still to make, in the order it issues them (R61). -/
  script : List (Access params)
  /-- The words that the host's reads returned (R54), oldest first. -/
  reads : List (Limb params)
  /-- Whose turn it is, next first: the free interleaving of unit and host (R272, 93_implementation_defined.md K1).
  Where it is empty, the enabled agent moves (R270). -/
  sched : List Turn
deriving DecidableEq, Repr

/-- The reasons a step can stop with a fault: NONE. "No access faults" (R50), "The block takes no traps" (R236), and
every command value has a completion (R27). Safe: a fault could only stop a run that the block goes on with. -/
inductive Fault where
deriving DecidableEq, Repr

/-- The reasons a step can be refused. -/
inductive Refusal where
  /-- Raised by an arm of `exec` whose command has no meaning yet; no arm of this model raises it. Safe: it would stop
  a run that the block goes on with. -/
  | notModelled (mnemonic : String)
deriving DecidableEq, Repr

/-- What a meaning or a step of this machine answers. -/
abbrev StepOutcome : Type := Host.Outcome State Fault Refusal

/-- STATUS after reset (R32): idle, every flag 0 (R262). -/
def Status.reset : Status := { busy := false, ovf := false, dbz := false, ill := false }

/-- The registers after reset (R32): every one 0. -/
def Block.reset (p : Params) : Block p :=
  { opa := 0, opb := 0, res := 0, rem := 0, status := Status.reset, pend := 0, lopa := 0, lopb := 0 }

/-- A NUMEXT-CORE of any parameters after reset, no access presented, none to come, nobody's turn fixed. -/
def State.resetOf (p : Params) : State :=
  { params := p, block := Block.reset p, held := none, script := [], reads := [], sched := [] }

/-- The machine right after reset (R32), for the document's 8-bit-limb, 32-bit-wide type (log 1). -/
def State.reset : State := State.resetOf Params.n4lb8

end Sys2Proof.Machine
end

