-- ==== Sys2Proof/Machine/Ops.lean ====
section
/-! DEFINITION. The shared operations over the registers: one limb of a register (00_scope.md R7), narrowing (R9),
issue (10_state.md R26), and completion (R27) with its conditions (60_exceptions.md R231, R232). The block takes no
traps (R236): a condition is recorded in STATUS by the completion that raises it, and no other operation enters or
leaves anything. -/

namespace Sys2Proof.Machine

/-- `limb(X, i)` (R7). -/
def limb {p : Params} (x : Wide p) (i : Nat) : Limb p := x.extractLsb' (p.lb * i) p.lb

/-- Replaces limb `i` of a register by `v` and leaves the other limbs unchanged (20_memory.md R55). -/
def setLimb {p : Params} (x : Wide p) (i : Nat) (v : Limb p) : Wide p :=
  (x &&& ~~~((BitVec.allOnes p.lb).setWidth p.w <<< (p.lb * i))) ||| (v.setWidth p.w <<< (p.lb * i))

/-- `v mod 2^W` as a register's value (R9, R11). -/
def narrow (p : Params) (v : Nat) : Wide p := BitVec.ofNat p.w v

/-- The same machine with other register contents. -/
def State.withBlock (s : State) (b : Block s.params) : State := { s with block := b }

/-- Issue (R26): the command and the operands are latched and BUSY is set; OVF, DBZ and ILL are not changed. -/
def issue {p : Params} (b : Block p) (c : Limb p) : Block p :=
  { b with pend := c, lopa := b.opa, lopb := b.opb, status := { b.status with busy := true } }

/-- Completion (R27): RES, REM and the three flags get what the command's rule gives, and BUSY is cleared. -/
def complete {p : Params} (b : Block p) (res rem : Wide p) (ovf dbz ill : Bool) : Block p :=
  { b with res := res, rem := rem, status := { busy := false, ovf := ovf, dbz := dbz, ill := ill } }

/-- The completion of a legal command that writes RES and keeps REM (R22, R23, R28). -/
def completeResult (s : State) (res : Wide s.params) (ovf : Bool) : StepOutcome :=
  .next (s.withBlock (complete s.block res s.block.rem ovf false false))

/-- The completion of a division with a non-zero divisor: RES is the quotient, REM the remainder (R23, R140, R141). -/
def completeDivision (s : State) (quotient remainder : Wide s.params) : StepOutcome :=
  .next (s.withBlock (complete s.block quotient remainder false false false))

/-- `signal DBZ` (R231): STATUS.DBZ is set, OVF cleared, and RES and REM keep their values. -/
def completeDbz (s : State) : StepOutcome :=
  .next (s.withBlock (complete s.block s.block.res s.block.rem false true false))

/-- The completion of an illegal command (R232): STATUS.ILL is set, OVF and DBZ cleared, and RES and REM keep their
values. Nothing of the command is recorded (R230), so why it is illegal makes no difference. -/
def completeIllegal (s : State) (_why : IllegalCommand) : StepOutcome :=
  .next (s.withBlock (complete s.block s.block.res s.block.rem false false true))

/-- The machine with the command word `w` (its low `nbits` bits) issued (R26) and the unit's turn next. A limb narrower
than the word keeps the word's low bits. -/
def State.issueWord (s : State) (nbits w : Nat) : State :=
  { s.withBlock (issue s.block (BitVec.ofNat s.params.lb (w % 2 ^ nbits))) with sched := .unit :: s.sched }

end Sys2Proof.Machine
end

