-- ==== Sys2Proof/Machine/Flags.lean ====
section
/-! DEFINITION. The overflow flag's rules (60_exceptions.md R230, 10_state.md R28) and the STATUS word (R24). DBZ and
ILL are written by the completions of Machine/Ops.lean. -/

namespace Sys2Proof.Machine

/-- The exact result does not fit W bits: OVF of ADD, MUL, MULU and NPOW2 (R100, R120, R122, R198). -/
def exceedsWidth (p : Params) (exact : Nat) : Bool := decide (2 ^ p.w ≤ exact)

/-- The borrow out of limb `N - 1`: OVF of SUB (R102). -/
def borrowOut (a b : Nat) : Bool := decide (a < b)

/-- The amount reaches the width: OVF of SHL and SHR (R165, R166). -/
def shiftsOut (p : Params) (s : Nat) : Bool := decide (p.w ≤ s)

/-- The STATUS word (R24): BUSY, OVF, DBZ and ILL at bits 0 to 3, the reserved bits 0. -/
def statusWord (p : Params) (f : Status) : Limb p :=
  BitVec.ofNat p.lb (f.busy.toNat + 2 * f.ovf.toNat + 4 * f.dbz.toNat + 8 * f.ill.toNat)

end Sys2Proof.Machine
end

