-- ==== Sys2Proof/Machine/Operands.lean ====
section
/-! DEFINITION. The operands that a command reads from the latches (30_encoding.md R84 to R86), and the primitives
`msb`, `lsb` and `popcount` of 00_scope.md R11. -/

namespace Sys2Proof.Machine

/-- `A = val(LOPA)` (R84). -/
abbrev operandA {p : Params} (b : Block p) : Nat := b.lopa.toNat

/-- `B = val(LOPB)` (R84). -/
abbrev operandB {p : Params} (b : Block p) : Nat := b.lopb.toNat

/-- `u = limb(LOPB, 0)`, the unit operand of MULU and DIVU (R85). -/
abbrev unitOperand {p : Params} (b : Block p) : Nat := (limb b.lopb 0).toNat

/-- `s = val(LOPB)`, the shift amount, not truncated and not reduced (R86). -/
abbrev shiftAmount {p : Params} (b : Block p) : Nat := b.lopb.toNat

/-- `msb(v)` for `v > 0`: the index of the highest one bit (R11). -/
def msb (v : Nat) : Nat := Nat.log2 v

/-- The index of the lowest one bit of `v` among the bits `k` to `k + fuel - 1`, and `k + fuel` where they are all
zero. -/
def lowestBitFrom (v : Nat) : Nat → Nat → Nat
  | 0, k => k
  | fuel + 1, k => if v.testBit k then k else lowestBitFrom v fuel (k + 1)

/-- `lsb(v)` for `0 < v < 2^w`: the index of the lowest one bit (R11). -/
def lsb (w v : Nat) : Nat := lowestBitFrom v w 0

/-- `popcount(v)` for `v < 2^w`: the number of one bits (R11). -/
def popcount : Nat → Nat → Nat
  | 0, _ => 0
  | w + 1, v => popcount w v + if v.testBit w then 1 else 0

end Sys2Proof.Machine
end

