-- ==== Sys2Proof/Machine/AddSub.lean ====
section
/-! DEFINITION. Adder and subtractor (41_add_sub.md). -/

namespace Sys2Proof.Machine

/-- ADD (R100). -/
def execAdd (s : State) : StepOutcome :=
  let sum := operandA s.block + operandB s.block
  completeResult s (narrow s.params sum) (exceedsWidth s.params sum)

/-- SUB (R102). -/
def execSub (s : State) : StepOutcome :=
  let a := operandA s.block
  let b := operandB s.block
  completeResult s (narrow s.params (if a < b then a + 2 ^ s.params.w - b else a - b)) (borrowOut a b)

end Sys2Proof.Machine
end

