-- ==== Sys2Proof/Machine/Divide.lean ====
section
/-! DEFINITION. Divider (43_divide.md). -/

namespace Sys2Proof.Machine

/-- What DIVREM and DIVU share (R140, R141): a zero divisor signals DBZ, another gives quotient and remainder. -/
def divideBy (s : State) (divisor : Nat) : StepOutcome :=
  let a := operandA s.block
  if divisor = 0 then completeDbz s
  else completeDivision s (narrow s.params (a / divisor)) (narrow s.params (a % divisor))

/-- DIVREM (R140). -/
def execDivrem (s : State) : StepOutcome := divideBy s (operandB s.block)

/-- DIVU (R141); the remainder is zero-extended into the whole of REM. -/
def execDivu (s : State) : StepOutcome := divideBy s (unitOperand s.block)

end Sys2Proof.Machine
end

