-- ==== Sys2Proof/Machine/LogicShift.lean ====
section
/-! DEFINITION. Bitwise logic and barrel shifter (44_logic_shift.md). -/

namespace Sys2Proof.Machine

/-- AND (R160). -/
def execAnd (s : State) : StepOutcome := completeResult s (s.block.lopa &&& s.block.lopb) false

/-- OR (R161). -/
def execOr (s : State) : StepOutcome := completeResult s (s.block.lopa ||| s.block.lopb) false

/-- XOR (R162). -/
def execXor (s : State) : StepOutcome := completeResult s (s.block.lopa ^^^ s.block.lopb) false

/-- NOT (R163). -/
def execNot (s : State) : StepOutcome :=
  completeResult s (narrow s.params (2 ^ s.params.w - 1 - operandA s.block)) false

/-- SHL (R165). -/
def execShl (s : State) : StepOutcome :=
  let n := shiftAmount s.block
  completeResult s
    (if s.params.w ≤ n then 0 else narrow s.params (operandA s.block * 2 ^ n))
    (shiftsOut s.params n)

/-- SHR (R166). -/
def execShr (s : State) : StepOutcome :=
  let n := shiftAmount s.block
  completeResult s
    (if s.params.w ≤ n then 0 else narrow s.params (operandA s.block / 2 ^ n))
    (shiftsOut s.params n)

end Sys2Proof.Machine
end

