-- ==== Sys2Proof/Machine/Multiply.lean ====
section
/-! DEFINITION. Multiplier (42_multiply.md). -/

namespace Sys2Proof.Machine

/-- MUL (R120). -/
def execMul (s : State) : StepOutcome :=
  let product := operandA s.block * operandB s.block
  completeResult s (narrow s.params product) (exceedsWidth s.params product)

/-- MULU (R122). -/
def execMulu (s : State) : StepOutcome :=
  let product := operandA s.block * unitOperand s.block
  completeResult s (narrow s.params product) (exceedsWidth s.params product)

end Sys2Proof.Machine
end

