-- ==== Sys2Proof/Machine/RotateCount.lean ====
section
/-! DEFINITION. Rotator, counters and power-of-two unit (45_rotate_count.md). Count results are zero-extended into
RES. -/

namespace Sys2Proof.Machine

/-- ROL (R190). -/
def execRol (s : State) : StepOutcome :=
  let w := s.params.w
  let a := operandA s.block
  let k := shiftAmount s.block % w
  completeResult s (if k = 0 then s.block.lopa else narrow s.params (a * 2 ^ k % 2 ^ w + a / 2 ^ (w - k))) false

/-- ROR (R191). -/
def execRor (s : State) : StepOutcome :=
  let w := s.params.w
  let a := operandA s.block
  let k := shiftAmount s.block % w
  completeResult s (if k = 0 then s.block.lopa else narrow s.params (a / 2 ^ k + a * 2 ^ (w - k) % 2 ^ w)) false

/-- CLZ (R193). -/
def execClz (s : State) : StepOutcome :=
  let w := s.params.w
  let a := operandA s.block
  completeResult s (narrow s.params (if a = 0 then w else w - 1 - msb a)) false

/-- CTZ (R194). -/
def execCtz (s : State) : StepOutcome :=
  let w := s.params.w
  let a := operandA s.block
  completeResult s (narrow s.params (if a = 0 then w else lsb w a)) false

/-- POPC (R195). -/
def execPopc (s : State) : StepOutcome :=
  completeResult s (narrow s.params (popcount s.params.w (operandA s.block))) false

/-- ZCNT (R196). -/
def execZcnt (s : State) : StepOutcome :=
  completeResult s (narrow s.params (s.params.w - popcount s.params.w (operandA s.block))) false

/-- ISPOW2 (R197). -/
def execIspow2 (s : State) : StepOutcome :=
  completeResult s (narrow s.params (if popcount s.params.w (operandA s.block) = 1 then 1 else 0)) false

/-- The least power of two that is not below `a`, before narrowing (R198). -/
def nextPow2 (a : Nat) : Nat := if a ≤ 1 then 1 else 2 ^ (msb (a - 1) + 1)

/-- NPOW2 (R198). -/
def execNpow2 (s : State) : StepOutcome :=
  let next := nextPow2 (operandA s.block)
  completeResult s
    (if exceedsWidth s.params next then 0 else narrow s.params next)
    (exceedsWidth s.params next)

end Sys2Proof.Machine
end

