-- ==== Sys2Proof/Machine/Dispatch.lean ====
section
/-! DEFINITION. The completion of a legal command (10_state.md R27): one arm for each constructor of `Instr`. -/

namespace Sys2Proof.Machine

def exec (i : Instr) (s : State) : Host.Outcome State Fault Refusal :=
  match i with
  -- 41_add_sub.md
  | .add => Sys2Proof.Machine.execAdd s
  | .sub => Sys2Proof.Machine.execSub s
  -- 42_multiply.md
  | .mul => Sys2Proof.Machine.execMul s
  | .mulu => Sys2Proof.Machine.execMulu s
  -- 43_divide.md
  | .divrem => Sys2Proof.Machine.execDivrem s
  | .divu => Sys2Proof.Machine.execDivu s
  -- 44_logic_shift.md
  | .and => Sys2Proof.Machine.execAnd s
  | .or => Sys2Proof.Machine.execOr s
  | .xor => Sys2Proof.Machine.execXor s
  | .not => Sys2Proof.Machine.execNot s
  | .shl => Sys2Proof.Machine.execShl s
  | .shr => Sys2Proof.Machine.execShr s
  -- 45_rotate_count.md
  | .rol => Sys2Proof.Machine.execRol s
  | .ror => Sys2Proof.Machine.execRor s
  | .clz => Sys2Proof.Machine.execClz s
  | .ctz => Sys2Proof.Machine.execCtz s
  | .popc => Sys2Proof.Machine.execPopc s
  | .zcnt => Sys2Proof.Machine.execZcnt s
  | .ispow2 => Sys2Proof.Machine.execIspow2 s
  | .npow2 => Sys2Proof.Machine.execNpow2 s

end Sys2Proof.Machine
end

