-- ==== Sys2Proof/Machine/Port.lean ====
section
/-! DEFINITION. The host port (20_memory.md): the register map (R51), reads (R54), writes (R55) and the hold (R57). -/

namespace Sys2Proof.Machine

/-- What stands at a word offset (R51). -/
inductive PortReg where
  /-- `OPA[i]`, read/write. -/
  | opa (i : Nat)
  /-- `OPB[i]`, read/write. -/
  | opb (i : Nat)
  /-- `RES[i]`, read-only. -/
  | res (i : Nat)
  /-- `REM[i]`, read-only. -/
  | rem (i : Nat)
  /-- `CMD`, write-only. -/
  | cmd
  /-- `STATUS`, read-only. -/
  | status
  /-- A reserved offset: reads 0, writes ignored. -/
  | reserved
deriving DecidableEq, Repr

/-- `OFF_CMD = 4N` (R51). -/
def offCmd (p : Params) : Nat := 4 * p.n

/-- `OFF_STATUS = 4N + 1` (R51). -/
def offStatus (p : Params) : Nat := 4 * p.n + 1

/-- The register map (R51). -/
def portReg (p : Params) (off : Nat) : PortReg :=
  if off < p.n then .opa off
  else if off < 2 * p.n then .opb (off - p.n)
  else if off < 3 * p.n then .res (off - 2 * p.n)
  else if off < 4 * p.n then .rem (off - 3 * p.n)
  else if off = offCmd p then .cmd
  else if off = offStatus p then .status
  else .reserved

/-- What `PortRead(off)`, not held, returns (R54). -/
def portRead {p : Params} (b : Block p) (off : Offset p) : Limb p :=
  match portReg p off.toNat with
  | .opa i => limb b.opa i
  | .opb i => limb b.opb i
  | .res i => limb b.res i
  | .rem i => limb b.rem i
  | .cmd => 0
  | .status => statusWord p b.status
  | .reserved => 0

/-- What `PortWrite(off, v)`, not held, does (R55). -/
def portWrite {p : Params} (b : Block p) (off : Offset p) (v : Limb p) : Block p :=
  match portReg p off.toNat with
  | .opa i => { b with opa := setLimb b.opa i v }
  | .opb i => { b with opb := setLimb b.opb i v }
  | .res _ => b
  | .rem _ => b
  | .cmd => issue b v
  | .status => b
  | .reserved => b

/-- `PortRead(OFF_STATUS)`, the one access that never holds (R57). -/
def isStatusRead {p : Params} : Access p → Bool
  | .read off => portReg p off.toNat == .status
  | .write _ _ => false

/-- The access holds (R57): BUSY is 1 and it is not a read of STATUS. -/
def holds {p : Params} (b : Block p) (a : Access p) : Bool := b.status.busy && !isStatusRead a

/-- The registers after an access, not held, is performed: a read changes none (R54), a write acts as R55 says. -/
def accessBlock {p : Params} (b : Block p) (a : Access p) : Block p :=
  match a with
  | .read _ => b
  | .write off v => portWrite b off v

/-- What the host has read after an access, not held, is performed: a read's word last (R54). -/
def accessReads {p : Params} (b : Block p) (reads : List (Limb p)) (a : Access p) : List (Limb p) :=
  match a with
  | .read off => reads ++ [portRead b off]
  | .write _ _ => reads

/-- The access is performed against the state as it is (R54, R55). -/
def perform (s : State) (a : Access s.params) : State :=
  { s with block := accessBlock s.block a, reads := accessReads s.block s.reads a }

end Sys2Proof.Machine
end

