-- ==== Sys2Proof/Machine/Agents.lean ====
section
/-! DEFINITION. What each agent does when it is its turn (10_state.md R20, R27; 20_memory.md R57; 70_reset_and_hazards.md
R260). -/

namespace Sys2Proof.Machine

/-- The host's turn. A held access is performed once BUSY is 0 and otherwise gives the host no step (R57); with none
held, the host presents its next access, which is performed at once or begins to hold. -/
def hostStep (s : State) : State :=
  match s.held with
  | some a => if holds s.block a then s else perform { s with held := none } a
  | none =>
    match s.script with
    | [] => s
    | a :: rest =>
      if holds s.block a then { s with held := some a, script := rest }
      else perform { s with script := rest } a

/-- The unit's step, completion (R27): the command in PEND is completed by its rule, an illegal one by R232. -/
def unitStep (s : State) : StepOutcome :=
  match decode s.block.pend with
  | .ok i => exec i s
  | .error why => completeIllegal s why

/-- Reset (R260): every register gets the value of R32; the command in flight and the held access are abandoned. The
accesses that the host has not yet presented, and what it has read, are the host's. -/
def resetStep (s : State) : State := { s with block := Block.reset s.params, held := none }

/-- One turn. The unit's step is enabled exactly when BUSY is 1 (R27); its turn passes where it is not enabled. -/
def takeTurn (t : Turn) (s : State) : StepOutcome :=
  match t with
  | .host => .next (hostStep s)
  | .unit => if s.block.status.busy then unitStep s else .next s
  | .reset => .next (resetStep s)

/-- Whose turn it is where `sched` says nothing: the unit's while a command is in flight, so that every command
completes (R270), and else the host's. -/
def enabledTurn (s : State) : Turn := if s.block.status.busy then .unit else .host

end Sys2Proof.Machine
end

