-- ==== Sys2Proof/Machine/Step.lean ====
section
/-! DEFINITION. One step of the machine: the agent whose turn it is moves (10_state.md R20). -/

namespace Sys2Proof.Machine

/-- One step: the next turn of `sched` is taken, or the enabled agent's where there is none. -/
def step (s : State) : StepOutcome :=
  match s.sched with
  | [] => takeTurn (enabledTurn s) s
  | t :: rest => takeTurn t { s with sched := rest }

/-- The machine with that command issued and the unit's turn next: the block fetches nothing (R30), so the word stands
in PEND, where the unit's step reads it (R27). -/
def State.withFetchWord (s : State) (nbits w : Nat) : State := s.issueWord nbits w

end Sys2Proof.Machine
end

