-- ==== Sys2Proof/Machine/HostSide.lean ====
section
/-! DEFINITION. What the spec says of the host's side of the port: the byte layout (20_memory.md R53), the listing form
and the pseudo-instructions (30_encoding.md R87, R88), and the policies over a (result, flag) pair (60_exceptions.md
R237, R238). None of it is a function of the block (00_scope.md R4): the step does not call it. -/

namespace Sys2Proof.Machine

/-- Little-endian byte `k` of a register: `v[8k+7 : 8k]` (R53). -/
def littleEndianByte {p : Params} (v : Wide p) (k : Nat) : BitVec 8 := v.extractLsb' (8 * k) 8

/-- Big-endian byte `k` of a register: `v[8(BYTES−1−k)+7 : 8(BYTES−1−k)]` (R53). -/
def bigEndianByte {p : Params} (v : Wide p) (k : Nat) : BitVec 8 := v.extractLsb' (8 * (p.bytes - 1 - k)) 8

/-- A word offset of the port (R50). -/
def offset (p : Params) (off : Nat) : Offset p := BitVec.ofNat p.addrBits off

/-- `W off, limb(V,0)`; …: the N limbs of `v` written from the word offset `base` up (R88). -/
def writeLimbs {p : Params} (base : Nat) (v : Wide p) : List (Access p) :=
  (List.range p.n).map fun i => .write (offset p (base + i)) (limb v i)

/-- N words read from the word offset `base` up (R88). -/
def readLimbs (p : Params) (base : Nat) : List (Access p) :=
  (List.range p.n).map fun i => .read (offset p (base + i))

/-- `lda V` (R88). -/
def ldaExpansion {p : Params} (v : Wide p) : List (Access p) := writeLimbs 0 v

/-- `ldb V` (R88). -/
def ldbExpansion {p : Params} (v : Wide p) : List (Access p) := writeLimbs p.n v

/-- `go OP` (R88). -/
def goExpansion (p : Params) (op : Instr) : List (Access p) := [.write (offset p (offCmd p)) (encode p.lb op)]

/-- `rdst` (R88). -/
def rdstExpansion (p : Params) : List (Access p) := [.read (offset p (offStatus p))]

/-- `wait` (R88) in a run in which `polls` STATUS reads return BUSY = 1 before one returns BUSY = 0. How many do is
what the host observes of the latency (R272). -/
def waitExpansion (p : Params) (polls : Nat) : List (Access p) :=
  List.replicate (polls + 1) (.read (offset p (offStatus p)))

/-- `exec OP`: `go OP`; `wait` (R88). -/
def execExpansion (p : Params) (op : Instr) (polls : Nat) : List (Access p) :=
  goExpansion p op ++ waitExpansion p polls

/-- `rdres` (R88). -/
def rdresExpansion (p : Params) : List (Access p) := readLimbs p (2 * p.n)

/-- `rdrem` (R88). -/
def rdremExpansion (p : Params) : List (Access p) := readLimbs p (3 * p.n)

/-- `mvra` (R88) in a run in which `rdres` returned the limbs of `r`. -/
def mvraExpansion {p : Params} (r : Wide p) : List (Access p) := rdresExpansion p ++ ldaExpansion r

/-- `mvrb` (R88) in a run in which `rdres` returned the limbs of `r`. -/
def mvrbExpansion {p : Params} (r : Wide p) : List (Access p) := rdresExpansion p ++ ldbExpansion r

/-- The lowest `k` hex digits of `v`, the most significant first. -/
def hexDigits : Nat → Nat → List Char
  | 0, _ => []
  | k + 1, v => "0123456789ABCDEF".toList.getD (v / 16 ^ k % 16) '0' :: hexDigits k v

/-- One LB-bit word in hex, as a listing writes it (R87). -/
def hexText {p : Params} (v : Limb p) : String := "0x" ++ String.ofList (hexDigits (p.lb / 4) v.toNat)

/-- The listing form of a write, `W <off>, <v>` (R87). -/
def writeListing {p : Params} (off : Offset p) (v : Limb p) : String :=
  "W " ++ String.ofList (Nat.toDigits 10 off.toNat) ++ ", " ++ hexText v

/-- The listing form of a read that returned `v`, `R <off> -> <v>` (R87). -/
def readListing {p : Params} (off : Offset p) (v : Limb p) : String :=
  "R " ++ String.ofList (Nat.toDigits 10 off.toNat) ++ " -> " ++ hexText v

/-- The command written to CMD, spelled by its mnemonic: `W 16, ADD` when N = 4 (R87). -/
def commandListing (p : Params) (op : Instr) : String :=
  "W " ++ String.ofList (Nat.toDigits 10 (offCmd p)) ++ ", " ++ op.mnemonic

/-- What a bare operator of R237 answers: the value, or a panic that names the operation and its condition. -/
inductive HostResult (p : Params) where
  /-- The operation's value. -/
  | value (v : Wide p)
  /-- A panic on overflow. -/
  | overflowPanic (op : Instr)
  /-- A panic on division by zero. -/
  | zeroDivisorPanic (op : Instr)
deriving DecidableEq, Repr

/-- `overflowing_*` (R237): the result and the flag. -/
def overflowingPolicy {p : Params} (b : Block p) : Wide p × Bool := (b.res, b.status.ovf)

/-- `checked_*` (R237): absent on OVF and on DBZ. -/
def checkedPolicy {p : Params} (b : Block p) : Option (Wide p) :=
  if b.status.ovf || b.status.dbz then none else some b.res

/-- `saturating_add` and `saturating_mul` (R237): `max_value()` on OVF. -/
def saturatingUpPolicy {p : Params} (b : Block p) : Wide p :=
  if b.status.ovf then BitVec.allOnes p.w else b.res

/-- `saturating_sub` (R237): `min_value()` on OVF. -/
def saturatingDownPolicy {p : Params} (b : Block p) : Wide p := if b.status.ovf then 0 else b.res

/-- The bare operators `+ - * / << >>` (R237): a panic on OVF and on DBZ. The panicking form of `next_power_of_two`
(R238) reads NPOW2's OVF in the same way. -/
def barePolicy {p : Params} (op : Instr) (b : Block p) : HostResult p :=
  if b.status.dbz then .zeroDivisorPanic op
  else if b.status.ovf then .overflowPanic op
  else .value b.res

/-- `checked_next_power_of_two` (R238): absent on NPOW2's OVF. -/
def checkedNextPowerOfTwo {p : Params} (b : Block p) : Option (Wide p) :=
  if b.status.ovf then none else some b.res

end Sys2Proof.Machine
end

