-- ==== Sys2Proof/Machine/Reference.lean ====
section
/-! DEFINITION. The reference structures of the spec: the limb-by-limb and bit-by-bit algorithms that R101, R103, R121,
R123, R142, R143, R164, R167, R193, R195 and R197 give beside the exact integer rules, and the limb order of R10. The
machine does not run them; the spec says that they give its values, and the obligations state so. -/

namespace Sys2Proof.Machine

/-- `a_i`, limb `i` of a register as a number. -/
def limbNat {p : Params} (x : Wide p) (i : Nat) : Nat := (limb x i).toNat

/-- `a_j` with `a_j = 0` for `j < 0` or `j ≥ N` (R167). -/
def limbOrZero {p : Params} (x : Wide p) (j : Int) : Nat :=
  if 0 ≤ j ∧ j < p.n then limbNat x j.toNat else 0

/-- Two values are compared limb by limb "from the most-significant limb downward, first differing limb decides" (R10):
whether `x` is less, by the limbs below `k`. -/
def limbLess {p : Params} (x y : Wide p) : Nat → Bool
  | 0 => false
  | k + 1 =>
    if limbNat x k = limbNat y k then limbLess x y k else decide (limbNat x k < limbNat y k)

/-- The carry chain of R101 after `k` limbs: `Σ_{i<k} r_i · 2^(LB·i)` and `c_k`. -/
def carryChain {p : Params} (a b : Wide p) : Nat → Nat × Nat
  | 0 => (0, 0)
  | k + 1 =>
    let before := carryChain a b k
    let t := limbNat a k + limbNat b k + before.2
    (before.1 + t % 2 ^ p.lb * 2 ^ (p.lb * k), t / 2 ^ p.lb)

/-- The borrow chain of R103 after `k` limbs: `Σ_{i<k} r_i · 2^(LB·i)` and `w_k`. -/
def borrowChain {p : Params} (a b : Wide p) : Nat → Nat × Nat
  | 0 => (0, 0)
  | k + 1 =>
    let before := borrowChain a b k
    let t : Int := (limbNat a k : Int) - limbNat b k - before.2
    (before.1 + (t % 2 ^ p.lb).toNat * 2 ^ (p.lb * k), if t < 0 then 1 else 0)

/-- The single-row chain of R123 after `k` limbs: `Σ_{i<k} r_i · 2^(LB·i)` and the carry `c`. -/
def unitProductChain {p : Params} (a : Wide p) (u : Nat) : Nat → Nat × Nat
  | 0 => (0, 0)
  | k + 1 =>
    let before := unitProductChain a u k
    let t := limbNat a k * u + before.2
    (before.1 + t % 2 ^ p.lb * 2 ^ (p.lb * k), t / 2 ^ p.lb)

/-- The inner loop of R121 for row `i` after `j` columns: the accumulator's limbs and the carry `c`. -/
def productRow {p : Params} (a b : Wide p) (i : Nat) (acc : List Nat) : Nat → List Nat × Nat
  | 0 => (acc, 0)
  | j + 1 =>
    let before := productRow a b i acc j
    let t := before.1.getD (i + j) 0 + limbNat a i * limbNat b j + before.2
    (before.1.set (i + j) (t % 2 ^ p.lb), t / 2 ^ p.lb)

/-- The outer loop of R121 after `i` rows, from `2N` zero limbs. -/
def schoolbook {p : Params} (a b : Wide p) : Nat → List Nat
  | 0 => List.replicate (2 * p.n) 0
  | i + 1 =>
    let row := productRow a b i (schoolbook a b i) p.n
    row.1.set (i + p.n) row.2

/-- `Σ_k acc[k] · 2^(LB·k)` over a list of limbs, the least significant first (R8). -/
def limbSum (lb : Nat) : List Nat → Nat
  | [] => 0
  | x :: rest => x + 2 ^ lb * limbSum lb rest

/-- The restoring division of R142, from bit `k - 1` down to bit 0: quotient and remainder. -/
def restoringDivide (a b : Nat) : Nat → Nat × Nat → Nat × Nat
  | 0, acc => acc
  | k + 1, (q, r) =>
    let r' := 2 * r + (a.testBit k).toNat
    if b ≤ r' then restoringDivide a b k (q + 2 ^ k, r' - b) else restoringDivide a b k (q, r')

/-- The limb-serial division of R143, from limb `i - 1` down to limb 0: quotient and remainder. -/
def limbDivide {p : Params} (a : Wide p) (u : Nat) : Nat → Nat × Nat → Nat × Nat
  | 0, acc => acc
  | i + 1, (q, r) =>
    let t := r * 2 ^ p.lb + limbNat a i
    limbDivide a u i (q + t / u * 2 ^ (p.lb * i), t % u)

/-- Limb `i` of SHL's result by R167, for `s < W`. -/
def shlLimb {p : Params} (a : Wide p) (s i : Nat) : Nat :=
  let q := s / p.lb
  let r := s % p.lb
  limbOrZero a ((i : Int) - q) * 2 ^ r % 2 ^ p.lb +
    if r = 0 then 0 else limbOrZero a ((i : Int) - q - 1) / 2 ^ (p.lb - r)

/-- Limb `i` of SHR's result by R167, for `s < W`. -/
def shrLimb {p : Params} (a : Wide p) (s i : Nat) : Nat :=
  let q := s / p.lb
  let r := s % p.lb
  limbOrZero a ((i : Int) + q) / 2 ^ r +
    if r = 0 then 0 else limbOrZero a ((i : Int) + q + 1) * 2 ^ (p.lb - r) % 2 ^ p.lb

/-- CLZ's scan of R193 over the limbs below `k`, from the most significant end, short-circuiting at the first non-zero
limb. -/
def leadingZeroScan {p : Params} (a : Wide p) : Nat → Nat
  | 0 => 0
  | k + 1 =>
    if limbNat a k = 0 then p.lb + leadingZeroScan a k else p.lb - 1 - msb (limbNat a k)

/-- CTZ's scan (R193) over `fuel` limbs from limb `k` up, short-circuiting at the first non-zero limb. -/
def trailingZeroScan {p : Params} (a : Wide p) : Nat → Nat → Nat
  | 0, _ => 0
  | fuel + 1, k =>
    if limbNat a k = 0 then p.lb + trailingZeroScan a fuel (k + 1) else lsb p.lb (limbNat a k)

/-- `Σ_{i<k} popcount(limb(A, i))` (R195). -/
def limbPopcount {p : Params} (a : Wide p) : Nat → Nat
  | 0 => 0
  | k + 1 => limbPopcount a k + popcount p.lb (limbNat a k)

end Sys2Proof.Machine
end

