-- ==== Sys2Proof/Safety.lean ====
section
/-! DEFINITION. The terms in which statements about the machine are made: the invariant of its states, what it is for a
command to complete, and the bits that the counters and the power-of-two unit speak of. -/

namespace Sys2Proof.Machine

/-- At most one of OVF, DBZ and ILL is set (60_exceptions.md R233). -/
def Status.AtMostOneCondition (f : Status) : Prop :=
  ¬(f.ovf = true ∧ f.dbz = true) ∧ ¬(f.ovf = true ∧ f.ill = true) ∧ ¬(f.dbz = true ∧ f.ill = true)

/-- While a command is in flight, the latches equal the operand registers (10_state.md R29). -/
def Block.LatchesMatch {p : Params} (b : Block p) : Prop :=
  b.status.busy = true → b.lopa = b.opa ∧ b.lopb = b.opb

/-- The states that runs from reset can reach satisfy this: the latches match (R29), at most one condition is recorded
(R233), and a read of STATUS is never held (R57). -/
structure State.Consistent (s : State) : Prop where
  latches : s.block.LatchesMatch
  conditions : s.block.status.AtMostOneCondition
  heldNotStatusRead : ∀ a, s.held = some a → isStatusRead a = false

/-- The same machine with other latched operands (10_state.md R26). -/
def State.withLatches (s : State) (a b : Wide s.params) : State :=
  s.withBlock { s.block with lopa := a, lopb := b }

/-- `v` is a power of two. -/
def IsPowerOfTwo (v : Nat) : Prop := ∃ k, v = 2 ^ k

/-- The next step is a reset (70_reset_and_hazards.md R260). -/
def State.ResetNext (s : State) : Prop := s.sched.head? = some .reset

/-- The two machines' blocks agree on every register but RES, REM and STATUS, which are all that a completion writes
(10_state.md R27). -/
def Block.SameButResults {p : Params} (b b' : Block p) : Prop :=
  b'.opa = b.opa ∧ b'.opb = b.opb ∧ b'.pend = b.pend ∧ b'.lopa = b.lopa ∧ b'.lopb = b.lopb

/-- The completion of `i` in `s` answers a next state whose RES is `res` and OVF `ovf`, whose BUSY, DBZ and ILL are 0,
and which is otherwise `s`: REM, every other register, and the host at the port. -/
def Completes (i : Instr) (s : State) (res : Nat) (ovf : Bool) : Prop :=
  ∃ b : Block s.params, exec i s = .next (s.withBlock b) ∧ b.res.toNat = res ∧
    b.status = { busy := false, ovf := ovf, dbz := false, ill := false } ∧ b.rem = s.block.rem ∧
    s.block.SameButResults b

/-- The completion of the division `i` in `s` answers a next state with that quotient in RES and that remainder in REM,
every bit of STATUS 0, and which is otherwise `s`. -/
def CompletesDivision (i : Instr) (s : State) (quotient remainder : Nat) : Prop :=
  ∃ b : Block s.params, exec i s = .next (s.withBlock b) ∧ b.res.toNat = quotient ∧ b.rem.toNat = remainder ∧
    b.status = { busy := false, ovf := false, dbz := false, ill := false } ∧ s.block.SameButResults b

/-- The completion of the division `i` in `s` answers a next state that is `s` but for STATUS, where DBZ alone is 1
(60_exceptions.md R231). -/
def SignalsDbz (i : Instr) (s : State) : Prop :=
  exec i s = .next (s.withBlock
    { s.block with status := { busy := false, ovf := false, dbz := true, ill := false } })

/-- `k` is the index of the highest one bit of `v` (00_scope.md R11). -/
def IsHighestOne (v k : Nat) : Prop := v.testBit k = true ∧ ∀ j, k < j → v.testBit j = false

/-- `k` is the index of the lowest one bit of `v` (00_scope.md R11). -/
def IsLowestOne (v k : Nat) : Prop := v.testBit k = true ∧ ∀ j, j < k → v.testBit j = false

/-- `q` is the least power of two that is not below `a` (45_rotate_count.md R198). -/
def IsLeastPowerOfTwo (a q : Nat) : Prop := IsPowerOfTwo q ∧ a ≤ q ∧ ∀ k, a ≤ 2 ^ k → q ≤ 2 ^ k

end Sys2Proof.Machine
end

