-- ==== Sys2Proof/Certificates/Slice0/Obligations.lean ====
section
/-! DEFINITION. The statements about NUMEXT-CORE for the provers. Every one is about every legal pair of parameters
(00_scope.md R5): `s.params` is free. `A`, `B`, `u` and `s` of the spec are spelled `s.block.lopa.toNat`,
`s.block.lopb.toNat`, `limbNat s.block.lopb 0` and `s.block.lopb.toNat` (30_encoding.md R84 to R86). -/

open Sys2Proof Sys2Proof.Machine

/-! ### Encoding (30_encoding.md) -/

/-- A sanity statement: one word of each unit, written out bit by bit from R82, and three words that R83 makes illegal.
The names under which those are rejected are the model's (log 14, a DESIGN CHOICE): R83 gives none. -/
def Obligations.WrittenOutWordsDecode : Prop :=
  decode (0b00000001#8) = .ok .add ∧ decode (0b00000010#8) = .ok .sub ∧
  decode (0b00000100#8) = .ok .mulu ∧ decode (0b00000101#8) = .ok .divrem ∧
  decode (0b00001011#8) = .ok .not ∧ decode (0b00001101#8) = .ok .shr ∧
  decode (0b00001110#8) = .ok .rol ∧ decode (0b00010000#8) = .ok .clz ∧
  decode (0b00010011#8) = .ok .zcnt ∧ decode (0b0000000000010101#16) = .ok .npow2 ∧
  decode (0b00000111#8) = .error .opNotListed ∧ decode (0b00100001#8) = .error .zNotZero ∧
  decode (0b0000000100000001#16) = .error .zxNotZero

/-- Decode and encode agree, both ways, at every limb width: a command is legal exactly when its whole LB-bit value is
one of R82's (R80), and no bit of a command word is dropped. -/
def Obligations.DecodeIsOkExactlyOnEncodings : Prop :=
  ∀ (lb : LimbBits) (c : BitVec lb.bits) (i : Instr), decode c = .ok i ↔ c = encode lb.bits i

/-- The illegal values of R83, each under the model's name for it (log 14, a DESIGN CHOICE: R83 gives no names). -/
def Obligations.IllegalValuesAreThoseOfR83 : Prop :=
  ∀ (lb : LimbBits) (c : BitVec lb.bits),
    (decode c = .error .opNotListed ↔ c.toNat = 0x00 ∨ c.toNat = 0x07 ∨ (0x16 ≤ c.toNat ∧ c.toNat ≤ 0x1F)) ∧
    (decode c = .error .zNotZero ↔ 0x20 ≤ c.toNat ∧ c.toNat ≤ 0xFF) ∧
    (decode c = .error .zxNotZero ↔ 0x100 ≤ c.toNat)

/-! ### The step: whose turn it is, issue, completion, the hold, reset -/

/-- A step runs the decoded command (10_state.md R27): where the unit moves and PEND decodes to `i`, the step is the
completion of `i`, with only the turn taken off `sched`; with nothing in `sched`, the unit moves while BUSY is 1 (log 2,
a DESIGN CHOICE). -/
def Obligations.StepCompletesThePendingCommand : Prop :=
  ∀ (s : State) (i : Instr), s.block.status.busy = true → decode s.block.pend = .ok i →
    (∀ turns, s.sched = .unit :: turns → step s = exec i { s with sched := turns }) ∧
    (s.sched = [] → step s = exec i s)

/-- The unit has no step while BUSY is 0 (R27: "enabled exactly when `STATUS.BUSY = 1`"): its turn passes (log 2, a
DESIGN CHOICE). -/
def Obligations.UnitHasNoStepWhileIdle : Prop :=
  ∀ (s : State) (turns : List Turn), s.block.status.busy = false → s.sched = .unit :: turns →
    step s = .next { s with sched := turns }

/-- R232: the completion of an illegal command sets ILL, clears OVF, DBZ and BUSY, and changes nothing else; with
nothing in `sched`, the unit moves while BUSY is 1 (log 2, a DESIGN CHOICE). -/
def Obligations.IllegalCommandCompletes : Prop :=
  ∀ (s : State) (turns : List Turn) (why : IllegalCommand), s.block.status.busy = true →
    s.sched = .unit :: turns ∨ s.sched = [] ∧ turns = [] → decode s.block.pend = .error why →
    step s = .next { s.withBlock
      { s.block with status := { busy := false, ovf := false, dbz := false, ill := true } } with sched := turns }

/-- R26: a CMD write with BUSY = 0 latches the command and both operands and sets BUSY; OVF, DBZ and ILL, and
everything else, are not changed. With nothing in `sched`, the host moves while BUSY is 0 (log 2, a DESIGN CHOICE). -/
def Obligations.CommandWriteIssues : Prop :=
  ∀ (s : State) (turns : List Turn) (rest : List (Access s.params)) (off : Offset s.params) (c : Limb s.params),
    s.block.status.busy = false → s.held = none → s.script = .write off c :: rest →
    off.toNat = 4 * s.params.n → s.sched = .host :: turns ∨ s.sched = [] ∧ turns = [] →
    step s = .next { s.withBlock
      { s.block with pend := c, lopa := s.block.opa, lopb := s.block.opb,
                     status := { s.block.status with busy := true } } with script := rest, sched := turns }

/-- R57: while BUSY = 1, an access that is not a read of STATUS begins to hold and changes no register; it goes on
holding, and the host has no step: that a turn of the host with no step passes is the model's (log 2, a DESIGN CHOICE). -/
def Obligations.AccessHoldsWhileBusy : Prop :=
  ∀ (s : State) (turns : List Turn), s.block.status.busy = true → s.sched = .host :: turns →
    (∀ (a : Access s.params) (rest : List (Access s.params)), s.held = none → s.script = a :: rest →
      (∀ off, a = .read off → off.toNat ≠ 4 * s.params.n + 1) →
      step s = .next { s with held := some a, script := rest, sched := turns }) ∧
    (∀ a : Access s.params, s.held = some a → (∀ off, a = .read off → off.toNat ≠ 4 * s.params.n + 1) →
      step s = .next { s with sched := turns })

/-- R57: a read of STATUS never holds; it returns the STATUS word of that moment. -/
def Obligations.StatusReadNeverHolds : Prop :=
  ∀ (s : State) (turns : List Turn) (rest : List (Access s.params)) (off : Offset s.params),
    s.held = none → s.script = .read off :: rest → off.toNat = 4 * s.params.n + 1 → s.sched = .host :: turns →
    step s = .next { s with script := rest, sched := turns,
                            reads := s.reads ++ [statusWord s.params s.block.status] }

/-- R57, R54, R55, R61: with BUSY = 0, the host's turn performs the held access against the state the completion left,
and, with none held, the next access in the host's order: a read returns the word R54 gives and changes no register, a
write acts as R55 says and returns nothing. With no access to make, the host's turn passes; and with nothing in `sched`,
the host moves while BUSY is 0 (both log 2, a DESIGN CHOICE). -/
def Obligations.IdleHostTurnPerformsTheAccess : Prop :=
  ∀ (s : State) (turns : List Turn), s.block.status.busy = false →
    s.sched = .host :: turns ∨ s.sched = [] ∧ turns = [] →
    (∀ off, s.held = some (.read off) →
      step s = .next { s with held := none, sched := turns, reads := s.reads ++ [portRead s.block off] }) ∧
    (∀ off v, s.held = some (.write off v) →
      step s = .next { s.withBlock (portWrite s.block off v) with held := none, sched := turns }) ∧
    (∀ off rest, s.held = none → s.script = .read off :: rest →
      step s = .next { s with script := rest, sched := turns, reads := s.reads ++ [portRead s.block off] }) ∧
    (∀ off v rest, s.held = none → s.script = .write off v :: rest →
      step s = .next { s.withBlock (portWrite s.block off v) with script := rest, sched := turns }) ∧
    (s.held = none → s.script = [] → step s = .next { s with sched := turns })

/-- R260: reset gives every register the value of R32, whatever was in flight, and abandons an access that holds at that
moment. Two clauses are the model's and not R260's: an access whose hold a completion has already lifted (BUSY = 0), and
which the host has not yet performed, is abandoned too (log 6, DEDUCED, unsafe for just this claim); and what the host
has read and has still to present stays, since it is the host's (log 7, a DESIGN CHOICE). -/
def Obligations.ResetTurnResetsTheBlock : Prop :=
  ∀ (s : State) (turns : List Turn), s.sched = .reset :: turns →
    step s = .next { s.withBlock (Block.reset s.params) with held := none, sched := turns }

/-- R32: the reset value of every register, and of STATUS with its reserved bits, whatever the parameters; and the
machine after reset holds them. -/
def Obligations.ResetValues : Prop :=
  (∀ p : Params, Block.reset p =
    { opa := BitVec.ofNat _ 0, opb := BitVec.ofNat _ 0, res := BitVec.ofNat _ 0, rem := BitVec.ofNat _ 0,
      status := { busy := false, ovf := false, dbz := false, ill := false },
      pend := BitVec.ofNat _ 0, lopa := BitVec.ofNat _ 0, lopb := BitVec.ofNat _ 0 } ∧
    statusWord p (Block.reset p).status = BitVec.ofNat _ 0) ∧
  State.reset.block = Block.reset State.reset.params

/-! ### Adder and subtractor (41_add_sub.md) -/

/-- R100. -/
def Obligations.AddResult : Prop :=
  (∀ lb : LimbBits, encode lb.bits .add = BitVec.ofNat lb.bits 0x01) ∧
  ∀ s : State, Completes .add s ((s.block.lopa.toNat + s.block.lopb.toNat) % 2 ^ s.params.w)
    (decide (2 ^ s.params.w ≤ s.block.lopa.toNat + s.block.lopb.toNat))

/-- R102, over the integers. -/
def Obligations.SubResult : Prop :=
  (∀ lb : LimbBits, encode lb.bits .sub = BitVec.ofNat lb.bits 0x02) ∧
  ∀ s : State, Completes .sub s
    (((s.block.lopa.toNat : Int) - s.block.lopb.toNat) % 2 ^ s.params.w).toNat
    (decide (s.block.lopa.toNat < s.block.lopb.toNat))

/-- R101: the limb-by-limb carry chain gives ADD's RES, and its last carry is OVF. -/
def Obligations.AddEqualsCarryChain : Prop :=
  ∀ s : State, ∃ ovf, Completes .add s (carryChain s.block.lopa s.block.lopb s.params.n).1 ovf ∧
    (carryChain s.block.lopa s.block.lopb s.params.n).2 = ovf.toNat

/-- R103: the limb-by-limb borrow chain gives SUB's RES, and its last borrow is OVF. -/
def Obligations.SubEqualsBorrowChain : Prop :=
  ∀ s : State, ∃ ovf, Completes .sub s (borrowChain s.block.lopa s.block.lopb s.params.n).1 ovf ∧
    (borrowChain s.block.lopa s.block.lopb s.params.n).2 = ovf.toNat

/-- R10: two values are equal exactly when all their limbs are, and the order that the first differing limb decides,
from the most significant down, is the numeric order. -/
def Obligations.LimbOrderIsNumericOrder : Prop :=
  ∀ (p : Params) (x y : Wide p),
    (x = y ↔ ∀ i, i < p.n → limb x i = limb y i) ∧ (limbLess x y p.n = true ↔ x.toNat < y.toNat)

/-- R104: after SUB, OVF = 1 exactly when A < B in the order of R10, and RES = 0 with OVF = 0 exactly when A = B. -/
def Obligations.SubDecidesTheOrder : Prop :=
  ∀ s : State, ∃ res ovf, Completes .sub s res ovf ∧
    (ovf = true ↔ limbLess s.block.lopa s.block.lopb s.params.n = true) ∧
    (res = 0 ∧ ovf = false ↔ s.block.lopa = s.block.lopb)

/-- R105: ADD commutes in RES and OVF and is associative in RES; SUB undoes ADD; and the document's two scenarios, at
every width. -/
def Obligations.AddSubLaws : Prop :=
  ∀ s : State,
    (∀ a b, ∃ res ovf, Completes .add (s.withLatches a b) res ovf ∧ Completes .add (s.withLatches b a) res ovf) ∧
    (∀ a b c, ∃ (ab bc : Wide s.params) (res : Nat) (o₁ o₂ o₃ o₄ : Bool),
      Completes .add (s.withLatches a b) ab.toNat o₁ ∧ Completes .add (s.withLatches b c) bc.toNat o₂ ∧
      Completes .add (s.withLatches ab c) res o₃ ∧ Completes .add (s.withLatches a bc) res o₄) ∧
    (∀ a b, ∃ (ab : Wide s.params) (o₁ o₂ : Bool), Completes .add (s.withLatches a b) ab.toNat o₁ ∧
      Completes .sub (s.withLatches ab b) a.toNat o₂) ∧
    Completes .add (s.withLatches (BitVec.allOnes _) (BitVec.ofNat _ 1)) 0 true ∧
    Completes .sub (s.withLatches (BitVec.ofNat _ 0) (BitVec.ofNat _ 1)) (2 ^ s.params.w - 1) true

/-! ### Multiplier (42_multiply.md) -/

/-- R120. -/
def Obligations.MulResult : Prop :=
  (∀ lb : LimbBits, encode lb.bits .mul = BitVec.ofNat lb.bits 0x03) ∧
  ∀ s : State, Completes .mul s (s.block.lopa.toNat * s.block.lopb.toNat % 2 ^ s.params.w)
    (decide (2 ^ s.params.w ≤ s.block.lopa.toNat * s.block.lopb.toNat))

/-- R122. -/
def Obligations.MuluResult : Prop :=
  (∀ lb : LimbBits, encode lb.bits .mulu = BitVec.ofNat lb.bits 0x04) ∧
  ∀ s : State, Completes .mulu s (s.block.lopa.toNat * limbNat s.block.lopb 0 % 2 ^ s.params.w)
    (decide (2 ^ s.params.w ≤ s.block.lopa.toNat * limbNat s.block.lopb 0))

/-- R121: the schoolbook double-width accumulation gives MUL's RES, and OVF says whether an upper limb is not zero. -/
def Obligations.MulEqualsSchoolbook : Prop :=
  ∀ s : State, Completes .mul s
    (limbSum s.params.lb ((schoolbook s.block.lopa s.block.lopb s.params.n).take s.params.n))
    (((schoolbook s.block.lopa s.block.lopb s.params.n).drop s.params.n).any (fun x => x != 0))

/-- R123: the single-row carry chain gives MULU's RES, and OVF says whether its last carry is not zero. -/
def Obligations.MuluEqualsUnitProductChain : Prop :=
  ∀ s : State, Completes .mulu s
    (unitProductChain s.block.lopa (limbNat s.block.lopb 0) s.params.n).1
    (decide ((unitProductChain s.block.lopa (limbNat s.block.lopb 0) s.params.n).2 ≠ 0))

/-- R124, its two laws of the block: MUL commutes, and MULU with `u` is MUL with B = u. -/
def Obligations.MulLaws : Prop :=
  ∀ s : State,
    (∀ a b, ∃ res ovf, Completes .mul (s.withLatches a b) res ovf ∧ Completes .mul (s.withLatches b a) res ovf) ∧
    (∀ a b, ∃ res ovf, Completes .mulu (s.withLatches a b) res ovf ∧
      Completes .mul (s.withLatches a ((limb b 0).setWidth _)) res ovf)

/-! ### Divider (43_divide.md) -/

/-- R140. -/
def Obligations.DivremResult : Prop :=
  (∀ lb : LimbBits, encode lb.bits .divrem = BitVec.ofNat lb.bits 0x05) ∧
  ∀ s : State,
    (s.block.lopb.toNat = 0 → SignalsDbz .divrem s) ∧
    (s.block.lopb.toNat ≠ 0 → CompletesDivision .divrem s (s.block.lopa.toNat / s.block.lopb.toNat)
      (s.block.lopa.toNat % s.block.lopb.toNat))

/-- R141. -/
def Obligations.DivuResult : Prop :=
  (∀ lb : LimbBits, encode lb.bits .divu = BitVec.ofNat lb.bits 0x06) ∧
  ∀ s : State,
    (limbNat s.block.lopb 0 = 0 → SignalsDbz .divu s) ∧
    (limbNat s.block.lopb 0 ≠ 0 → CompletesDivision .divu s (s.block.lopa.toNat / limbNat s.block.lopb 0)
      (s.block.lopa.toNat % limbNat s.block.lopb 0))

/-- R142: restoring binary long division gives DIVREM's RES and REM. -/
def Obligations.DivremEqualsRestoringDivision : Prop :=
  ∀ s : State, s.block.lopb.toNat ≠ 0 →
    CompletesDivision .divrem s
      (restoringDivide s.block.lopa.toNat s.block.lopb.toNat s.params.w (0, 0)).1
      (restoringDivide s.block.lopa.toNat s.block.lopb.toNat s.params.w (0, 0)).2

/-- R143: the limb-serial division gives DIVU's RES and REM. -/
def Obligations.DivuEqualsLimbDivision : Prop :=
  ∀ s : State, limbNat s.block.lopb 0 ≠ 0 →
    CompletesDivision .divu s
      (limbDivide s.block.lopa (limbNat s.block.lopb 0) s.params.n (0, 0)).1
      (limbDivide s.block.lopa (limbNat s.block.lopb 0) s.params.n (0, 0)).2

/-- R144, its laws: quotient times divisor plus remainder is the dividend, and the remainder is less than the divisor;
DIVU's remainder fits one limb, so limbs 1 to N−1 of REM are 0 (R141). -/
def Obligations.DivisionLaws : Prop :=
  ∀ s : State,
    (s.block.lopb.toNat ≠ 0 → ∃ q r, CompletesDivision .divrem s q r ∧
      q * s.block.lopb.toNat + r = s.block.lopa.toNat ∧ r < s.block.lopb.toNat) ∧
    (limbNat s.block.lopb 0 ≠ 0 → ∃ q, ∃ r : Wide s.params, CompletesDivision .divu s q r.toNat ∧
      q * limbNat s.block.lopb 0 + r.toNat = s.block.lopa.toNat ∧ r.toNat < limbNat s.block.lopb 0 ∧
      ∀ i, 0 < i → i < s.params.n → limb r i = 0)

/-! ### Logic and shifter (44_logic_shift.md) -/

/-- R160 to R163: the four logic commands, bit by bit. -/
def Obligations.LogicResults : Prop :=
  (∀ lb : LimbBits, encode lb.bits .and = BitVec.ofNat lb.bits 0x08 ∧ encode lb.bits .or = BitVec.ofNat lb.bits 0x09 ∧
    encode lb.bits .xor = BitVec.ofNat lb.bits 0x0A ∧ encode lb.bits .not = BitVec.ofNat lb.bits 0x0B) ∧
  ∀ s : State,
    (∃ r : Wide s.params, Completes .and s r.toNat false ∧
      ∀ k, k < s.params.w → r.getLsbD k = (s.block.lopa.getLsbD k && s.block.lopb.getLsbD k)) ∧
    (∃ r : Wide s.params, Completes .or s r.toNat false ∧
      ∀ k, k < s.params.w → r.getLsbD k = (s.block.lopa.getLsbD k || s.block.lopb.getLsbD k)) ∧
    (∃ r : Wide s.params, Completes .xor s r.toNat false ∧
      ∀ k, k < s.params.w → r.getLsbD k = (s.block.lopa.getLsbD k ^^ s.block.lopb.getLsbD k)) ∧
    (∃ r : Wide s.params, Completes .not s r.toNat false ∧ r.toNat = 2 ^ s.params.w - 1 - s.block.lopa.toNat ∧
      ∀ k, k < s.params.w → r.getLsbD k = !s.block.lopa.getLsbD k)

/-- R164: the logic commands act limb by limb. -/
def Obligations.LogicActsLimbByLimb : Prop :=
  ∀ s : State,
    (∃ r : Wide s.params, Completes .and s r.toNat false ∧
      ∀ i, i < s.params.n → limb r i = limb s.block.lopa i &&& limb s.block.lopb i) ∧
    (∃ r : Wide s.params, Completes .or s r.toNat false ∧
      ∀ i, i < s.params.n → limb r i = limb s.block.lopa i ||| limb s.block.lopb i) ∧
    (∃ r : Wide s.params, Completes .xor s r.toNat false ∧
      ∀ i, i < s.params.n → limb r i = limb s.block.lopa i ^^^ limb s.block.lopb i) ∧
    (∃ r : Wide s.params, Completes .not s r.toNat false ∧
      ∀ i, i < s.params.n → limb r i = ~~~limb s.block.lopa i)

/-- R165. -/
def Obligations.ShlResult : Prop :=
  (∀ lb : LimbBits, encode lb.bits .shl = BitVec.ofNat lb.bits 0x0C) ∧
  ∀ s : State,
    (s.params.w ≤ s.block.lopb.toNat → Completes .shl s 0 true) ∧
    (s.block.lopb.toNat < s.params.w →
      Completes .shl s (s.block.lopa.toNat * 2 ^ s.block.lopb.toNat % 2 ^ s.params.w) false)

/-- R166. -/
def Obligations.ShrResult : Prop :=
  (∀ lb : LimbBits, encode lb.bits .shr = BitVec.ofNat lb.bits 0x0D) ∧
  ∀ s : State,
    (s.params.w ≤ s.block.lopb.toNat → Completes .shr s 0 true) ∧
    (s.block.lopb.toNat < s.params.w → Completes .shr s (s.block.lopa.toNat / 2 ^ s.block.lopb.toNat) false)

/-- R167: for `s < W`, every limb of a shift's result from two neighbouring limbs of A. -/
def Obligations.ShiftsCarryAcrossLimbs : Prop :=
  ∀ s : State, s.block.lopb.toNat < s.params.w →
    (∃ r : Wide s.params, Completes .shl s r.toNat false ∧
      ∀ i, i < s.params.n → limbNat r i = shlLimb s.block.lopa s.block.lopb.toNat i) ∧
    (∃ r : Wide s.params, Completes .shr s r.toNat false ∧
      ∀ i, i < s.params.n → limbNat r i = shrLimb s.block.lopa s.block.lopb.toNat i)

/-! ### Rotator, counters, power-of-two unit (45_rotate_count.md) -/

/-- R190: bit `k` of A goes to bit `(k + s) mod W`; and the rule's formula where `s mod W` is not 0. -/
def Obligations.RolResult : Prop :=
  (∀ lb : LimbBits, encode lb.bits .rol = BitVec.ofNat lb.bits 0x0E) ∧
  ∀ s : State, ∃ r : Wide s.params, Completes .rol s r.toNat false ∧
    (∀ k, k < s.params.w → r.getLsbD ((k + s.block.lopb.toNat) % s.params.w) = s.block.lopa.getLsbD k) ∧
    (s.block.lopb.toNat % s.params.w = 0 → r = s.block.lopa) ∧
    (s.block.lopb.toNat % s.params.w ≠ 0 → r.toNat =
      s.block.lopa.toNat * 2 ^ (s.block.lopb.toNat % s.params.w) % 2 ^ s.params.w +
      s.block.lopa.toNat / 2 ^ (s.params.w - s.block.lopb.toNat % s.params.w))

/-- R191: bit `(k + s) mod W` of A goes to bit `k`; and the rule's formula where `s mod W` is not 0. -/
def Obligations.RorResult : Prop :=
  (∀ lb : LimbBits, encode lb.bits .ror = BitVec.ofNat lb.bits 0x0F) ∧
  ∀ s : State, ∃ r : Wide s.params, Completes .ror s r.toNat false ∧
    (∀ k, k < s.params.w → r.getLsbD k = s.block.lopa.getLsbD ((k + s.block.lopb.toNat) % s.params.w)) ∧
    (s.block.lopb.toNat % s.params.w = 0 → r = s.block.lopa) ∧
    (s.block.lopb.toNat % s.params.w ≠ 0 → r.toNat =
      s.block.lopa.toNat / 2 ^ (s.block.lopb.toNat % s.params.w) +
      s.block.lopa.toNat * 2 ^ (s.params.w - s.block.lopb.toNat % s.params.w) % 2 ^ s.params.w)

/-- R192: ROL by `s` is ROR by `(W − (s mod W)) mod W`, and neither loses a bit: POPC of the result is POPC of A. -/
def Obligations.RotateLaws : Prop :=
  ∀ s : State,
    (∃ res : Nat, Completes .rol s res false ∧
      Completes .ror (s.withLatches s.block.lopa
        (BitVec.ofNat _ ((s.params.w - s.block.lopb.toNat % s.params.w) % s.params.w))) res false) ∧
    (∃ (rol ror : Wide s.params) (count : Nat), Completes .rol s rol.toNat false ∧
      Completes .ror s ror.toNat false ∧ Completes .popc s count false ∧
      Completes .popc (s.withLatches rol s.block.lopb) count false ∧
      Completes .popc (s.withLatches ror s.block.lopb) count false)

/-- R193: W for A = 0, else `W − 1 − msb(A)`; and the limb scan from the most significant end gives the same count. -/
def Obligations.ClzResult : Prop :=
  (∀ lb : LimbBits, encode lb.bits .clz = BitVec.ofNat lb.bits 0x10) ∧
  ∀ s : State, Completes .clz s (leadingZeroScan s.block.lopa s.params.n) false ∧
    (s.block.lopa.toNat = 0 → Completes .clz s s.params.w false) ∧
    (∀ k, IsHighestOne s.block.lopa.toNat k → Completes .clz s (s.params.w - 1 - k) false)

/-- R194: W for A = 0, else `lsb(A)`; and the limb scan from the least significant end gives the same count. -/
def Obligations.CtzResult : Prop :=
  (∀ lb : LimbBits, encode lb.bits .ctz = BitVec.ofNat lb.bits 0x11) ∧
  ∀ s : State, Completes .ctz s (trailingZeroScan s.block.lopa s.params.n 0) false ∧
    (s.block.lopa.toNat = 0 → Completes .ctz s s.params.w false) ∧
    (∀ k, IsLowestOne s.block.lopa.toNat k → Completes .ctz s k false)

/-- R195: the number of one bits of A, the sum of the per-limb counts. -/
def Obligations.PopcResult : Prop :=
  (∀ lb : LimbBits, encode lb.bits .popc = BitVec.ofNat lb.bits 0x12) ∧
  ∀ s : State, Completes .popc s (((Finset.range s.params.w).filter fun k => s.block.lopa.getLsbD k = true).card) false ∧
    Completes .popc s (limbPopcount s.block.lopa s.params.n) false

/-- R196: the number of zero bits of A, so that POPC + ZCNT = W. -/
def Obligations.ZcntResult : Prop :=
  (∀ lb : LimbBits, encode lb.bits .zcnt = BitVec.ofNat lb.bits 0x13) ∧
  ∀ s : State, Completes .zcnt s (((Finset.range s.params.w).filter fun k => s.block.lopa.getLsbD k = false).card) false ∧
    ∃ ones zeros, Completes .popc s ones false ∧ Completes .zcnt s zeros false ∧ ones + zeros = s.params.w

/-- R197: 1 exactly when one bit of A is one, which is when A is a power of two, and when "exactly one limb [is]
non-zero and that limb's value is itself a power of two". -/
def Obligations.Ispow2Result : Prop :=
  (∀ lb : LimbBits, encode lb.bits .ispow2 = BitVec.ofNat lb.bits 0x14) ∧
  ∀ s : State, ∃ r : Nat, Completes .ispow2 s r false ∧ (r = 0 ∨ r = 1) ∧
    (r = 1 ↔ popcount s.params.w s.block.lopa.toNat = 1) ∧
    (r = 1 ↔ IsPowerOfTwo s.block.lopa.toNat) ∧
    (r = 1 ↔ ∃ i, i < s.params.n ∧ IsPowerOfTwo (limbNat s.block.lopa i) ∧
      ∀ j, j < s.params.n → j ≠ i → limbNat s.block.lopa j = 0)

/-- R198: the least power of two that is not below A where it fits, else 0 with OVF = 1, exactly when A > 2^(W−1). -/
def Obligations.Npow2Result : Prop :=
  (∀ lb : LimbBits, encode lb.bits .npow2 = BitVec.ofNat lb.bits 0x15) ∧
  ∀ s : State,
    (2 ^ (s.params.w - 1) < s.block.lopa.toNat → Completes .npow2 s 0 true) ∧
    (s.block.lopa.toNat ≤ 2 ^ (s.params.w - 1) →
      ∃ q, IsLeastPowerOfTwo s.block.lopa.toNat q ∧ Completes .npow2 s q false)

/-! ### The register port (20_memory.md) -/

/-- R6: ADDR_BITS is the least integer with 2^ADDR_BITS ≥ NREG. -/
def Obligations.AddrBitsIsLeast : Prop :=
  ∀ p : Params, 4 * p.n + 2 ≤ 2 ^ p.addrBits ∧ ∀ k, 4 * p.n + 2 ≤ 2 ^ k → p.addrBits ≤ k

/-- R54 with the map of R51: what a read of each offset returns. -/
def Obligations.PortReadsTheRegisterMap : Prop :=
  ∀ (p : Params) (b : Block p) (off : Offset p),
    (∀ i, i < p.n →
      (off.toNat = i → portRead b off = limb b.opa i) ∧
      (off.toNat = p.n + i → portRead b off = limb b.opb i) ∧
      (off.toNat = 2 * p.n + i → portRead b off = limb b.res i) ∧
      (off.toNat = 3 * p.n + i → portRead b off = limb b.rem i)) ∧
    (off.toNat = 4 * p.n → portRead b off = 0) ∧
    (off.toNat = 4 * p.n + 1 → portRead b off = statusWord p b.status) ∧
    (4 * p.n + 2 ≤ off.toNat → portRead b off = 0)

/-- R24: BUSY, OVF, DBZ and ILL at bits 0 to 3 of the STATUS word, and every reserved bit 0. -/
def Obligations.StatusWordBits : Prop :=
  ∀ (p : Params) (f : Status),
    (statusWord p f).getLsbD 0 = f.busy ∧ (statusWord p f).getLsbD 1 = f.ovf ∧
    (statusWord p f).getLsbD 2 = f.dbz ∧ (statusWord p f).getLsbD 3 = f.ill ∧
    ∀ k, 4 ≤ k → (statusWord p f).getLsbD k = false

/-- R55: a write to an operand limb replaces that limb, so that a read returns it (R54), and leaves every other offset
reading as before, STATUS among them, and every other register as it was. -/
def Obligations.OperandWriteReplacesOneLimb : Prop :=
  ∀ (p : Params) (b : Block p) (off : Offset p) (v : Limb p), off.toNat < 2 * p.n →
    portRead (portWrite b off v) off = v ∧
    (∀ other : Offset p, other ≠ off → portRead (portWrite b off v) other = portRead b other) ∧
    portWrite b off v = { b with opa := (portWrite b off v).opa, opb := (portWrite b off v).opb }

/-- R55: a write to RES, REM, STATUS or a reserved offset does nothing. -/
def Obligations.ReadOnlyWritesAreIgnored : Prop :=
  ∀ (p : Params) (b : Block p) (off : Offset p) (v : Limb p),
    (2 * p.n ≤ off.toNat ∧ off.toNat < 4 * p.n → portWrite b off v = b) ∧
    (4 * p.n + 1 ≤ off.toNat → portWrite b off v = b)

/-- R88 (`lda V`, `ldb V`) over R55: writing the N limbs of a value to a register's offsets, the lowest first, gives
the register that value and changes no other. -/
def Obligations.WritingEveryLimbSetsTheOperand : Prop :=
  ∀ (p : Params) (b : Block p) (v : Wide p),
    (List.range p.n).foldl (fun b i => portWrite b (offset p i) (limb v i)) b = { b with opa := v } ∧
    (List.range p.n).foldl (fun b i => portWrite b (offset p (p.n + i)) (limb v i)) b = { b with opb := v }

/-! ### Whole-machine rules -/

/-- The state after reset is consistent. -/
def Obligations.ResetIsConsistent : Prop := ∀ p : Params, (State.resetOf p).Consistent

/-- Every step keeps consistency: the latches match the operands while a command is in flight (10_state.md R29), at
most one condition is recorded (60_exceptions.md R233), and a read of STATUS is never held (R57). -/
def Obligations.StepKeepsConsistency : Prop :=
  ∀ s t : State, s.Consistent → step s = .next t → t.Consistent

/-- No step of any state stops: no access faults (R50), nothing traps (R236), every command value has a completion
(R27); and the parameters never change (R5). -/
def Obligations.EveryStepAnswersNext : Prop :=
  ∀ s : State, ∃ t : State, step s = .next t ∧ t.params = s.params

/-- R271, with the fairness of R270 as the model has it (log 5): from any state with a command in flight and no reset
to come, BUSY is 0 after at most one step more than `sched` has turns. -/
def Obligations.IssuedCommandCompletes : Prop :=
  ∀ s : State, s.block.status.busy = true → (∀ turn ∈ s.sched, turn ≠ .reset) →
    ∃ (k : Nat) (t : State), k ≤ s.sched.length + 1 ∧ Sys2Proof.core.run k s = .next t ∧
      t.block.status.busy = false

/-- R272: no rule depends on the latency. However many host turns lie between issue and completion, the registers after
the completion are those of completing at once. Latency as a number of host turns is the model's form of R272's LAT
(log 5, DEDUCED). -/
def Obligations.LatencyDoesNotChangeTheResult : Prop :=
  ∀ (s : State) (m : Nat) (turns : List Turn), s.block.status.busy = true →
    s.sched = List.replicate m .host ++ .unit :: turns →
    ∃ (b : Block s.params) (held : Option (Access s.params)) (script : List (Access s.params))
      (reads : List (Limb s.params)),
      unitStep s = .next (s.withBlock b) ∧
      Sys2Proof.core.run (m + 1) s =
        .next { params := s.params, block := b, held := held, script := script, reads := reads, sched := turns }

/-- R23: REM changes only at the completion of DIVREM or DIVU with a non-zero divisor, or at a reset. -/
def Obligations.OnlyDivisionWritesRem : Prop :=
  ∀ s t : State, step s = .next t → t.block.rem.toNat ≠ s.block.rem.toNat →
    s.ResetNext ∨ (s.block.status.busy = true ∧ t.block.status.busy = false ∧
      ((decode s.block.pend = .ok .divrem ∧ s.block.lopb.toNat ≠ 0) ∨
       (decode s.block.pend = .ok .divu ∧ limbNat s.block.lopb 0 ≠ 0)))

/-- R26, R265: as long as no completion and no reset happens, RES, REM, OVF, DBZ and ILL keep the values of the last
completed command, whatever the host does. -/
def Obligations.ResultsChangeOnlyAtCompletion : Prop :=
  ∀ s t : State, step s = .next t → ¬s.ResetNext → s.block.status.busy = false ∨ t.block.status.busy = true →
    t.block.res.toNat = s.block.res.toNat ∧ t.block.rem.toNat = s.block.rem.toNat ∧
    t.block.status.ovf = s.block.status.ovf ∧ t.block.status.dbz = s.block.status.dbz ∧
    t.block.status.ill = s.block.status.ill

/-- R64, R57: while a command is in flight, no step but a reset changes the command, its latched operands, OPA or
OPB. -/
def Obligations.NothingChangesACommandInFlight : Prop :=
  ∀ s t : State, step s = .next t → ¬s.ResetNext → s.block.status.busy = true →
    t.block.pend.toNat = s.block.pend.toNat ∧ t.block.lopa.toNat = s.block.lopa.toNat ∧
    t.block.lopb.toNat = s.block.lopb.toNat ∧ t.block.opa.toNat = s.block.opa.toNat ∧
    t.block.opb.toNat = s.block.opb.toNat

/-- R26: BUSY rises only by a host write to CMD, whose value is the command that is then in flight, on the operands that
OPA and OPB held. -/
def Obligations.OnlyACommandWriteIssues : Prop :=
  ∀ s t : State, step s = .next t → s.block.status.busy = false → t.block.status.busy = true →
    ∃ (off : Offset s.params) (c : Limb s.params), off.toNat = 4 * s.params.n ∧
      (s.held = some (.write off c) ∨ (s.held = none ∧ s.script.head? = some (.write off c))) ∧
      t.block.pend.toNat = c.toNat ∧ t.block.lopa.toNat = s.block.opa.toNat ∧
      t.block.lopb.toNat = s.block.opb.toNat

/-! ### The host's side -/

/-- R53: limb `i` holds little-endian bytes `i*LB/8` to `(i+1)*LB/8 − 1`, least significant byte first, and big-endian
byte `k` is little-endian byte `BYTES − 1 − k`. -/
def Obligations.ByteLayout : Prop :=
  ∀ (p : Params) (v : Wide p),
    (∀ i j, i < p.n → j < p.lb / 8 →
      littleEndianByte v (i * p.lb / 8 + j) = (limb v i).extractLsb' (8 * j) 8) ∧
    (∀ k, k < p.bytes → bigEndianByte v k = littleEndianByte v (p.bytes - 1 - k))

/-- R237 and R238 over the commands they speak of. ADD, SUB and MUL: `overflowing_*` gives RES with the flag,
`checked_*` RES where the exact result fits and else nothing, `saturating_*` the exact result clamped, the bare operator
RES or the panic on overflow. SHL and SHR: the bare operator alike. DIVREM and DIVU: `checked_*` gives nothing and the
bare operator panics exactly on a zero divisor, and both else give RES. NPOW2: the checked and the panicking form. -/
def Obligations.HostPoliciesFollowTheFlag : Prop :=
  ∀ s : State,
    (∃ b : Block s.params, exec .add s = .next (s.withBlock b) ∧
      b.res.toNat = (s.block.lopa.toNat + s.block.lopb.toNat) % 2 ^ s.params.w ∧
      overflowingPolicy b = (b.res, decide (2 ^ s.params.w ≤ s.block.lopa.toNat + s.block.lopb.toNat)) ∧
      checkedPolicy b = (if 2 ^ s.params.w ≤ s.block.lopa.toNat + s.block.lopb.toNat then none else some b.res) ∧
      (saturatingUpPolicy b).toNat = min (s.block.lopa.toNat + s.block.lopb.toNat) (2 ^ s.params.w - 1) ∧
      barePolicy .add b = (if 2 ^ s.params.w ≤ s.block.lopa.toNat + s.block.lopb.toNat then .overflowPanic .add
        else .value b.res)) ∧
    (∃ b : Block s.params, exec .sub s = .next (s.withBlock b) ∧
      b.res.toNat = (((s.block.lopa.toNat : Int) - s.block.lopb.toNat) % 2 ^ s.params.w).toNat ∧
      overflowingPolicy b = (b.res, decide (s.block.lopa.toNat < s.block.lopb.toNat)) ∧
      checkedPolicy b = (if s.block.lopa.toNat < s.block.lopb.toNat then none else some b.res) ∧
      (saturatingDownPolicy b).toNat = s.block.lopa.toNat - s.block.lopb.toNat ∧
      barePolicy .sub b = (if s.block.lopa.toNat < s.block.lopb.toNat then .overflowPanic .sub else .value b.res)) ∧
    (∃ b : Block s.params, exec .mul s = .next (s.withBlock b) ∧
      b.res.toNat = s.block.lopa.toNat * s.block.lopb.toNat % 2 ^ s.params.w ∧
      overflowingPolicy b = (b.res, decide (2 ^ s.params.w ≤ s.block.lopa.toNat * s.block.lopb.toNat)) ∧
      checkedPolicy b = (if 2 ^ s.params.w ≤ s.block.lopa.toNat * s.block.lopb.toNat then none else some b.res) ∧
      (saturatingUpPolicy b).toNat = min (s.block.lopa.toNat * s.block.lopb.toNat) (2 ^ s.params.w - 1) ∧
      barePolicy .mul b = (if 2 ^ s.params.w ≤ s.block.lopa.toNat * s.block.lopb.toNat then .overflowPanic .mul
        else .value b.res)) ∧
    (∃ b : Block s.params, exec .shl s = .next (s.withBlock b) ∧
      b.res.toNat = s.block.lopa.toNat * 2 ^ s.block.lopb.toNat % 2 ^ s.params.w ∧
      barePolicy .shl b = (if s.params.w ≤ s.block.lopb.toNat then .overflowPanic .shl else .value b.res)) ∧
    (∃ b : Block s.params, exec .shr s = .next (s.withBlock b) ∧
      b.res.toNat = s.block.lopa.toNat / 2 ^ s.block.lopb.toNat ∧
      barePolicy .shr b = (if s.params.w ≤ s.block.lopb.toNat then .overflowPanic .shr else .value b.res)) ∧
    (∃ b : Block s.params, exec .divrem s = .next (s.withBlock b) ∧
      (s.block.lopb.toNat ≠ 0 → b.res.toNat = s.block.lopa.toNat / s.block.lopb.toNat) ∧
      checkedPolicy b = (if s.block.lopb.toNat = 0 then none else some b.res) ∧
      barePolicy .divrem b = (if s.block.lopb.toNat = 0 then .zeroDivisorPanic .divrem else .value b.res)) ∧
    (∃ b : Block s.params, exec .divu s = .next (s.withBlock b) ∧
      (limbNat s.block.lopb 0 ≠ 0 → b.res.toNat = s.block.lopa.toNat / limbNat s.block.lopb 0) ∧
      checkedPolicy b = (if limbNat s.block.lopb 0 = 0 then none else some b.res) ∧
      barePolicy .divu b = (if limbNat s.block.lopb 0 = 0 then .zeroDivisorPanic .divu else .value b.res)) ∧
    (∃ b : Block s.params, exec .npow2 s = .next (s.withBlock b) ∧
      (s.block.lopa.toNat ≤ 2 ^ (s.params.w - 1) → IsLeastPowerOfTwo s.block.lopa.toNat b.res.toNat) ∧
      checkedNextPowerOfTwo b = (if 2 ^ (s.params.w - 1) < s.block.lopa.toNat then none else some b.res) ∧
      barePolicy .npow2 b = (if 2 ^ (s.params.w - 1) < s.block.lopa.toNat then .overflowPanic .npow2
        else .value b.res))
end

