-- ==== Sys2Proof/Laws/State.lean ====
section
/-! SUPPORT. One lemma for each field under each update of the state, and of the block: no later proof unfolds a record
update. -/

namespace Sys2Proof.Laws

open Sys2Proof Sys2Proof.Machine

section withBlock
variable (s : State) (b : Block s.params)

@[simp] theorem withBlock_params : (s.withBlock b).params = s.params := rfl
@[simp] theorem withBlock_block : (s.withBlock b).block = b := rfl
@[simp] theorem withBlock_held : (s.withBlock b).held = s.held := rfl
@[simp] theorem withBlock_script : (s.withBlock b).script = s.script := rfl
@[simp] theorem withBlock_reads : (s.withBlock b).reads = s.reads := rfl
@[simp] theorem withBlock_sched : (s.withBlock b).sched = s.sched := rfl
@[simp] theorem withBlock_self : s.withBlock s.block = s := rfl
@[simp] theorem withBlock_withBlock (b' : Block s.params) : (s.withBlock b).withBlock b' = s.withBlock b' := rfl

end withBlock

section issue
variable {p : Params} (b : Block p) (c : Limb p)

@[simp] theorem issue_opa : (issue b c).opa = b.opa := rfl
@[simp] theorem issue_opb : (issue b c).opb = b.opb := rfl
@[simp] theorem issue_res : (issue b c).res = b.res := rfl
@[simp] theorem issue_rem : (issue b c).rem = b.rem := rfl
@[simp] theorem issue_pend : (issue b c).pend = c := rfl
@[simp] theorem issue_lopa : (issue b c).lopa = b.opa := rfl
@[simp] theorem issue_lopb : (issue b c).lopb = b.opb := rfl
@[simp] theorem issue_busy : (issue b c).status.busy = true := rfl
@[simp] theorem issue_ovf : (issue b c).status.ovf = b.status.ovf := rfl
@[simp] theorem issue_dbz : (issue b c).status.dbz = b.status.dbz := rfl
@[simp] theorem issue_ill : (issue b c).status.ill = b.status.ill := rfl

end issue

section complete
variable {p : Params} (b : Block p) (res rem : Wide p) (ovf dbz ill : Bool)

@[simp] theorem complete_opa : (complete b res rem ovf dbz ill).opa = b.opa := rfl
@[simp] theorem complete_opb : (complete b res rem ovf dbz ill).opb = b.opb := rfl
@[simp] theorem complete_res : (complete b res rem ovf dbz ill).res = res := rfl
@[simp] theorem complete_rem : (complete b res rem ovf dbz ill).rem = rem := rfl
@[simp] theorem complete_pend : (complete b res rem ovf dbz ill).pend = b.pend := rfl
@[simp] theorem complete_lopa : (complete b res rem ovf dbz ill).lopa = b.lopa := rfl
@[simp] theorem complete_lopb : (complete b res rem ovf dbz ill).lopb = b.lopb := rfl
@[simp] theorem complete_status : (complete b res rem ovf dbz ill).status = ⟨false, ovf, dbz, ill⟩ := rfl

end complete

section reset
variable (p : Params)

@[simp] theorem resetBlock_opa : (Block.reset p).opa = 0 := rfl
@[simp] theorem resetBlock_opb : (Block.reset p).opb = 0 := rfl
@[simp] theorem resetBlock_res : (Block.reset p).res = 0 := rfl
@[simp] theorem resetBlock_rem : (Block.reset p).rem = 0 := rfl
@[simp] theorem resetBlock_status : (Block.reset p).status = ⟨false, false, false, false⟩ := rfl
@[simp] theorem resetBlock_pend : (Block.reset p).pend = 0 := rfl
@[simp] theorem resetBlock_lopa : (Block.reset p).lopa = 0 := rfl
@[simp] theorem resetBlock_lopb : (Block.reset p).lopb = 0 := rfl

end reset

section resetStep
variable (s : State)

@[simp] theorem resetStep_params : (resetStep s).params = s.params := rfl
@[simp] theorem resetStep_block : (resetStep s).block = Block.reset s.params := rfl
@[simp] theorem resetStep_held : (resetStep s).held = none := rfl
@[simp] theorem resetStep_script : (resetStep s).script = s.script := rfl
@[simp] theorem resetStep_reads : (resetStep s).reads = s.reads := rfl
@[simp] theorem resetStep_sched : (resetStep s).sched = s.sched := rfl

end resetStep

section perform
variable (s : State) (a : Access s.params)

@[simp] theorem perform_params : (perform s a).params = s.params := rfl
@[simp] theorem perform_block : (perform s a).block = accessBlock s.block a := rfl
@[simp] theorem perform_held : (perform s a).held = s.held := rfl
@[simp] theorem perform_script : (perform s a).script = s.script := rfl
@[simp] theorem perform_reads : (perform s a).reads = accessReads s.block s.reads a := rfl
@[simp] theorem perform_sched : (perform s a).sched = s.sched := rfl

end perform

section access
variable {p : Params} (b : Block p) (reads : List (Limb p)) (off : Offset p) (v : Limb p)

/-- A read changes no register (R54). -/
@[simp] theorem accessBlock_read : accessBlock b (.read off) = b := rfl
@[simp] theorem accessBlock_write : accessBlock b (.write off v) = portWrite b off v := rfl
@[simp] theorem accessReads_read : accessReads b reads (.read off) = reads ++ [portRead b off] := rfl
@[simp] theorem accessReads_write : accessReads b reads (.write off v) = reads := rfl

end access

end Sys2Proof.Laws
end

