-- ==== Sys2Proof/Laws/Ops.lean ====
section
/-! SUPPORT. What each shared operation can do, said once: the completions, the meanings, a port write, the host's
turn, the step. -/

namespace Sys2Proof.Laws

open Sys2Proof Sys2Proof.Machine

/-- What a completion of a legal command can do (10_state.md R27, R28): RES and REM get some values and OVF and DBZ
some bits, never both set, with RES and REM kept where DBZ is; ILL and BUSY are cleared; nothing else changes. -/
theorem exec_cases (i : Instr) (s : State) :
    ∃ (res rem : Wide s.params) (ovf dbz : Bool),
      exec i s = .next (s.withBlock (complete s.block res rem ovf dbz false)) ∧
      (ovf && dbz) = false ∧ (dbz = true → res = s.block.res ∧ rem = s.block.rem) := by
  have division : ∀ d, ∃ (res rem : Wide s.params) (ovf dbz : Bool),
      divideBy s d = .next (s.withBlock (complete s.block res rem ovf dbz false)) ∧
      (ovf && dbz) = false ∧ (dbz = true → res = s.block.res ∧ rem = s.block.rem) := by
    intro d
    unfold divideBy
    split
    · exact ⟨_, _, _, _, rfl, rfl, fun _ => ⟨rfl, rfl⟩⟩
    · exact ⟨_, _, _, _, rfl, rfl, fun h => by cases h⟩
  cases i
  case divrem => exact division _
  case divu => exact division _
  all_goals exact ⟨_, _, _, _, rfl, Bool.and_false _, fun h => by cases h⟩

/-- A command that is no division keeps REM (R23). -/
theorem exec_keeps_rem (i : Instr) (s : State) (h₁ : i ≠ .divrem) (h₂ : i ≠ .divu) :
    ∃ res ovf, exec i s = completeResult s res ovf := by
  cases i
  case divrem => exact absurd rfl h₁
  case divu => exact absurd rfl h₂
  all_goals exact ⟨_, _, rfl⟩

/-- A division completes in one of two ways (R140, R141). -/
theorem divideBy_cases (s : State) (d : Nat) :
    (d = 0 ∧ divideBy s d = completeDbz s) ∨
    (d ≠ 0 ∧ divideBy s d = completeDivision s (narrow s.params (operandA s.block / d))
      (narrow s.params (operandA s.block % d))) := by
  unfold divideBy
  split
  · exact .inl ⟨‹_›, rfl⟩
  · exact .inr ⟨‹_›, rfl⟩

/-- What the unit's step can do (R27): the completion of a legal command, or that of an illegal one (R232). -/
theorem unitStep_cases (s : State) :
    (∃ i, decode s.block.pend = .ok i ∧ unitStep s = exec i s) ∨
    (∃ why, decode s.block.pend = .error why ∧ unitStep s =
      .next (s.withBlock (complete s.block s.block.res s.block.rem false false true))) := by
  unfold unitStep
  split
  · rename_i i h
    exact .inl ⟨i, h, rfl⟩
  · rename_i why h
    exact .inr ⟨why, h, rfl⟩

/-- What the unit's step can write: RES, REM and the flags, at most one of them, with BUSY cleared. -/
theorem unitStep_next (s : State) :
    ∃ (res rem : Wide s.params) (ovf dbz ill : Bool),
      unitStep s = .next (s.withBlock (complete s.block res rem ovf dbz ill)) ∧
      (ovf && dbz) = false ∧ (ovf && ill) = false ∧ (dbz && ill) = false := by
  rcases unitStep_cases s with ⟨i, -, h⟩ | ⟨why, -, h⟩
  · obtain ⟨res, rem, ovf, dbz, h', hexcl, -⟩ := exec_cases i s
    exact ⟨res, rem, ovf, dbz, false, h.trans h', hexcl, Bool.and_false _, Bool.and_false _⟩
  · exact ⟨_, _, _, _, _, h, rfl, rfl, rfl⟩

/-- What a port write can do (20_memory.md R55): one operand limb, an issue, or nothing. -/
theorem portWrite_cases {p : Params} (b : Block p) (off : Offset p) (v : Limb p) :
    (∃ i, portReg p off.toNat = .opa i ∧ portWrite b off v = { b with opa := setLimb b.opa i v }) ∨
    (∃ i, portReg p off.toNat = .opb i ∧ portWrite b off v = { b with opb := setLimb b.opb i v }) ∨
    (portReg p off.toNat = .cmd ∧ portWrite b off v = issue b v) ∨
    portWrite b off v = b := by
  unfold portWrite
  split
  · exact .inl ⟨_, ‹_›, rfl⟩
  · exact .inr (.inl ⟨_, ‹_›, rfl⟩)
  · exact .inr (.inr (.inr rfl))
  · exact .inr (.inr (.inr rfl))
  · exact .inr (.inr (.inl ⟨‹_›, rfl⟩))
  · exact .inr (.inr (.inr rfl))
  · exact .inr (.inr (.inr rfl))

/-- What the host's turn can do (R57): nothing, begin to hold, or perform the held or the next access. -/
theorem hostStep_cases (s : State) :
    hostStep s = s ∨
    (∃ a rest, s.held = none ∧ s.script = a :: rest ∧ holds s.block a = true ∧
      hostStep s = { s with held := some a, script := rest }) ∨
    (∃ a, s.held = some a ∧ holds s.block a = false ∧ hostStep s = perform { s with held := none } a) ∨
    (∃ a rest, s.held = none ∧ s.script = a :: rest ∧ holds s.block a = false ∧
      hostStep s = perform { s with script := rest } a) := by
  unfold hostStep
  split
  · rename_i a ha
    split
    · exact .inl rfl
    · exact .inr (.inr (.inl ⟨a, ha, by simpa using ‹¬ holds s.block a = true›, rfl⟩))
  · rename_i hnone
    split
    · exact .inl rfl
    · rename_i a rest hs
      split
      · exact .inr (.inl ⟨a, rest, hnone, hs, ‹_›, rfl⟩)
      · exact .inr (.inr (.inr ⟨a, rest, hnone, hs, by simpa using ‹¬ holds s.block a = true›, rfl⟩))

/-- What the host's turn can do to the registers: nothing, or a port write while BUSY is 0 (R55, R57). -/
theorem hostStep_block (s : State) :
    ∃ b : Block s.params, (∃ held script reads, hostStep s =
        { params := s.params, block := b, held := held, script := script, reads := reads, sched := s.sched }) ∧
      (b = s.block ∨ (s.block.status.busy = false ∧ ∃ off v,
        (s.held = some (.write off v) ∨ (s.held = none ∧ s.script.head? = some (.write off v))) ∧
        b = portWrite s.block off v)) := by
  rcases hostStep_cases s with h | ⟨a, rest, h1, h2, h3, h⟩ | ⟨a, h1, h3, h⟩ | ⟨a, rest, h1, h2, h3, h⟩
  · exact ⟨s.block, ⟨_, _, _, h⟩, .inl rfl⟩
  · exact ⟨s.block, ⟨_, _, _, h⟩, .inl rfl⟩
  · cases a with
    | read off => exact ⟨s.block, ⟨_, _, _, h⟩, .inl rfl⟩
    | write off v =>
      refine ⟨portWrite s.block off v, ⟨_, _, _, h⟩, .inr ⟨?_, off, v, .inl h1, rfl⟩⟩
      simpa [holds, isStatusRead] using h3
  · cases a with
    | read off => exact ⟨s.block, ⟨_, _, _, h⟩, .inl rfl⟩
    | write off v =>
      refine ⟨portWrite s.block off v, ⟨_, _, _, h⟩, .inr ⟨?_, off, v, .inr ⟨h1, by rw [h2]; rfl⟩, rfl⟩⟩
      simpa [holds, isStatusRead] using h3

/-- The one step a machine can take: `sched` loses its first turn, if it has one, and that turn, or the enabled one, is
the host's, the unit's or a reset's. -/
theorem step_cases (s : State) :
    ∃ s' : State, s' = { s with sched := s.sched.tail } ∧
      (step s = .next (hostStep s') ∨
       (s.block.status.busy = true ∧ step s = unitStep s') ∨
       (s.block.status.busy = false ∧ step s = .next s') ∨
       (s.sched.head? = some .reset ∧ step s = .next (resetStep s'))) := by
  refine ⟨_, rfl, ?_⟩
  unfold step
  split
  · rename_i hs
    have hself : ({ s with sched := s.sched.tail } : State) = s := by
      rw [hs]; cases s; cases hs; rfl
    rw [hself]
    unfold enabledTurn
    cases hb : s.block.status.busy
    · exact .inl rfl
    · exact .inr (.inl ⟨rfl, by simp [takeTurn, hb]⟩)
  · rename_i t rest hs
    have htail : s.sched.tail = rest := by rw [hs]; rfl
    have hhead : s.sched.head? = some t := by rw [hs]; rfl
    rw [htail]
    cases t
    · exact .inl rfl
    · cases hb : s.block.status.busy
      · exact .inr (.inr (.inl ⟨rfl, by simp [takeTurn, hb]⟩))
      · exact .inr (.inl ⟨rfl, by simp [takeTurn, hb]⟩)
    · exact .inr (.inr (.inr ⟨hhead, rfl⟩))

/-- The next step after placing a command word is the unit's, on that word. -/
theorem step_withFetchWord (s : State) (nbits w : Nat) :
    step (s.withFetchWord nbits w) =
      unitStep (s.withBlock (issue s.block (BitVec.ofNat s.params.lb (w % 2 ^ nbits)))) := rfl

end Sys2Proof.Laws
end

