-- ==== Sys2Proof/Laws/Words.lean ====
section
/-! SUPPORT. The sizes of R5 and R6, and the laws of the limbs of a register: what `limb` reads, what `setLimb` writes,
and how a register's value is made of its limbs (00_scope.md R7, R8). -/

namespace Sys2Proof.Laws

open Sys2Proof Sys2Proof.Machine

/-! ### Sizes -/

theorem eight_le_lb (p : Params) : 8 ≤ p.lb := by
  cases h : p.limbBits <;> simp [Params.lb, LimbBits.bits, h]

theorem lb_pos (p : Params) : 0 < p.lb := Nat.lt_of_lt_of_le (by decide) (eight_le_lb p)

theorem eight_dvd_lb (p : Params) : 8 ∣ p.lb := by
  cases h : p.limbBits <;> simp [Params.lb, LimbBits.bits, h]

theorem lb_le_w (p : Params) : p.lb ≤ p.w := Nat.le_mul_of_pos_left _ p.pos

theorem eight_le_w (p : Params) : 8 ≤ p.w := Nat.le_trans (eight_le_lb p) (lb_le_w p)

theorem w_pos (p : Params) : 0 < p.w := Nat.lt_of_lt_of_le (by decide) (eight_le_w p)

/-- A count of bits fits W bits (the preamble of 45_rotate_count.md). -/
theorem w_lt_two_pow_w (p : Params) : p.w < 2 ^ p.w := Nat.lt_two_pow_self

theorem limb_end_le_w (p : Params) {i : Nat} (h : i < p.n) : p.lb * i + p.lb ≤ p.w := by
  have : p.lb * (i + 1) ≤ p.lb * p.n := Nat.mul_le_mul_left _ h
  rw [Nat.mul_succ] at this
  simpa [Params.w, Nat.mul_comm] using this

/-- Every offset of the register map can be expressed (R6). -/
theorem nreg_le_two_pow_addrBits (p : Params) : p.nreg ≤ 2 ^ p.addrBits :=
  Nat.lt_log2_self

/-! ### Limbs -/

@[simp] theorem narrow_toNat (p : Params) (v : Nat) : (narrow p v).toNat = v % 2 ^ p.w := by
  simp [narrow]

theorem limb_getLsbD {p : Params} (x : Wide p) (i j : Nat) :
    (limb x i).getLsbD j = (decide (j < p.lb) && x.getLsbD (p.lb * i + j)) := by
  simp [limb]

theorem limbNat_eq {p : Params} (x : Wide p) (i : Nat) :
    limbNat x i = x.toNat / 2 ^ (p.lb * i) % 2 ^ p.lb := by
  simp [limbNat, limb, Nat.shiftRight_eq_div_pow]

theorem limbNat_lt {p : Params} (x : Wide p) (i : Nat) : limbNat x i < 2 ^ p.lb := (limb x i).isLt

theorem testBit_limbNat {p : Params} (x : Wide p) (i j : Nat) :
    (limbNat x i).testBit j = (decide (j < p.lb) && x.toNat.testBit (p.lb * i + j)) := by
  rw [limbNat, BitVec.testBit_toNat, limb_getLsbD, BitVec.testBit_toNat]

theorem limb_eq_of_limbNat_eq {p : Params} {x y : Wide p} {i j : Nat} (h : limbNat x i = limbNat y j) :
    limb x i = limb y j := BitVec.eq_of_toNat_eq h

/-- The value below limb `k + 1` is the value below limb `k` and limb `k` (R8). -/
theorem mod_limb_succ {p : Params} (x : Wide p) (k : Nat) :
    x.toNat % 2 ^ (p.lb * (k + 1)) = x.toNat % 2 ^ (p.lb * k) + limbNat x k * 2 ^ (p.lb * k) := by
  rw [limbNat_eq, Nat.mul_succ, Nat.pow_add, Nat.mod_mul, Nat.mul_comm (2 ^ (p.lb * k))]

/-- The value below limb N is the whole value. -/
theorem mod_all_limbs {p : Params} (x : Wide p) : x.toNat % 2 ^ (p.lb * p.n) = x.toNat := by
  rw [Nat.mul_comm]
  exact Nat.mod_eq_of_lt x.isLt

/-- Two registers are equal when all their limbs are (R10). -/
theorem eq_of_limbs_eq {p : Params} {x y : Wide p} (h : ∀ i, i < p.n → limb x i = limb y i) : x = y := by
  apply BitVec.eq_of_getLsbD_eq
  intro k hk
  have hlb := lb_pos p
  have hi : k / p.lb < p.n := Nat.div_lt_of_lt_mul (by rw [Nat.mul_comm]; exact hk)
  have hj : k % p.lb < p.lb := Nat.mod_lt _ hlb
  have := congrArg (fun l => l.getLsbD (k % p.lb)) (h _ hi)
  simpa only [limb_getLsbD, hj, decide_true, Bool.true_and, Nat.div_add_mod] using this

theorem setLimb_getLsbD {p : Params} (x : Wide p) (i : Nat) (v : Limb p) (k : Nat) (hk : k < p.w) :
    (setLimb x i v).getLsbD k =
      if p.lb * i ≤ k ∧ k < p.lb * i + p.lb then v.getLsbD (k - p.lb * i) else x.getLsbD k := by
  have hk' : k < p.n * p.lb := hk
  by_cases h1 : p.lb * i ≤ k
  · by_cases h2 : k < p.lb * i + p.lb
    · have h3 : k - p.lb * i < p.lb := by omega
      have h4 : ¬ k < p.lb * i := by omega
      simp [setLimb, h1, h2, h3, h4, hk']
    · have h3 : ¬ k - p.lb * i < p.lb := by omega
      have h6 : v.getLsbD (k - p.lb * i) = false := BitVec.getLsbD_of_ge _ _ (by omega)
      simp [setLimb, h2, h3, h6, hk']
  · have h4 : k < p.lb * i := by omega
    simp [setLimb, h1, h4, hk']

/-- The limb that was written reads back (R54, R55). -/
theorem limb_setLimb_self {p : Params} (x : Wide p) {i : Nat} (hi : i < p.n) (v : Limb p) :
    limb (setLimb x i v) i = v := by
  apply BitVec.eq_of_getLsbD_eq
  intro j hj
  have := limb_end_le_w p hi
  rw [limb_getLsbD, setLimb_getLsbD _ _ _ _ (by omega)]
  simp [hj]

/-- A write to one limb leaves every other limb alone (R55). -/
theorem limb_setLimb_other {p : Params} (x : Wide p) {i k : Nat} (hk : k < p.n) (h : k ≠ i) (v : Limb p) :
    limb (setLimb x i v) k = limb x k := by
  apply BitVec.eq_of_getLsbD_eq
  intro j hj
  have hend := limb_end_le_w p hk
  rw [limb_getLsbD, limb_getLsbD, setLimb_getLsbD _ _ _ _ (by omega), if_neg]
  rintro ⟨h1, h2⟩
  rcases Nat.lt_or_gt_of_ne h with h3 | h3
  · have : p.lb * (k + 1) ≤ p.lb * i := Nat.mul_le_mul_left _ h3
    rw [Nat.mul_succ] at this
    omega
  · have : p.lb * (i + 1) ≤ p.lb * k := Nat.mul_le_mul_left _ h3
    rw [Nat.mul_succ] at this
    omega

end Sys2Proof.Laws
end

