-- ==== Sys2Proof/Laws/Completes.lean ====
section
/-! SUPPORT. From a meaning's shared operation to the terms of Safety.lean: one lemma for each way a command completes,
that a completion's result and flag are determined, and what the host's policies make of a completed block. -/

namespace Sys2Proof.Laws

open Sys2Proof Sys2Proof.Machine

/-- A command whose meaning writes RES completes with that result and flag. -/
theorem completes_of_result {i : Instr} {s : State} {res : Wide s.params} {ovf : Bool} {v : Nat}
    (h : exec i s = completeResult s res ovf) (hv : res.toNat = v) : Completes i s v ovf :=
  ⟨_, h, hv, rfl, rfl, rfl, rfl, rfl, rfl, rfl⟩

/-- The same, with the flag given up to equality. -/
theorem completes_of_result_flag {i : Instr} {s : State} {res : Wide s.params} {ovf ovf' : Bool} {v : Nat}
    (h : exec i s = completeResult s res ovf') (hv : res.toNat = v) (ho : ovf' = ovf) : Completes i s v ovf := by
  subst ho
  exact completes_of_result h hv

/-- A division by a non-zero divisor completes with its quotient and remainder, which fit W bits. -/
theorem completesDivision_of_divideBy {i : Instr} {s : State} {d : Nat} (h : exec i s = divideBy s d) (hd : d ≠ 0) :
    CompletesDivision i s (s.block.lopa.toNat / d) (s.block.lopa.toNat % d) := by
  rcases divideBy_cases s d with ⟨h0, -⟩ | ⟨-, h1⟩
  · exact absurd h0 hd
  · have hlt := s.block.lopa.isLt
    refine ⟨_, h.trans h1, ?_, ?_, rfl, rfl, rfl, rfl, rfl, rfl⟩
    · rw [complete_res, narrow_toNat]
      exact Nat.mod_eq_of_lt (Nat.lt_of_le_of_lt (Nat.div_le_self _ _) hlt)
    · rw [complete_rem, narrow_toNat]
      exact Nat.mod_eq_of_lt (Nat.lt_of_le_of_lt (Nat.mod_le _ _) hlt)

/-- A division by zero signals DBZ. -/
theorem signalsDbz_of_divideBy {i : Instr} {s : State} {d : Nat} (h : exec i s = divideBy s d) (hd : d = 0) :
    SignalsDbz i s := by
  rcases divideBy_cases s d with ⟨-, h1⟩ | ⟨h0, -⟩
  · exact h.trans h1
  · exact absurd hd h0

/-- A completion's result and flag are determined by the state. -/
theorem completes_unique {i : Instr} {s : State} {v v' : Nat} {o o' : Bool}
    (h : Completes i s v o) (h' : Completes i s v' o') : v = v' ∧ o = o' := by
  obtain ⟨b, hb, rfl, hs, -⟩ := h
  obtain ⟨b', hb', rfl, hs', -⟩ := h'
  rw [hb] at hb'
  have : b = b' := by simpa [State.withBlock] using hb'
  subst this
  rw [hs] at hs'
  exact ⟨rfl, by simpa using hs'⟩

/-- What the policies of R237 and R238 make of a block whose completion recorded no DBZ: RES, or what stands for OVF. -/
theorem policies_of_status {p : Params} {b : Block p} {ovf : Bool} (op : Instr)
    (h : b.status = { busy := false, ovf := ovf, dbz := false, ill := false }) :
    overflowingPolicy b = (b.res, ovf) ∧ checkedPolicy b = (if ovf then none else some b.res) ∧
    saturatingUpPolicy b = (if ovf then BitVec.allOnes p.w else b.res) ∧
    saturatingDownPolicy b = (if ovf then 0 else b.res) ∧
    barePolicy op b = (if ovf then .overflowPanic op else .value b.res) ∧
    checkedNextPowerOfTwo b = (if ovf then none else some b.res) := by
  simp [overflowingPolicy, checkedPolicy, saturatingUpPolicy, saturatingDownPolicy, barePolicy, checkedNextPowerOfTwo, h]

/-- After a DBZ, the checked form is absent and the bare operator panics for its divisor (R237). -/
theorem policies_of_dbz {p : Params} {b : Block p} (op : Instr) (h : b.status.dbz = true) :
    checkedPolicy b = none ∧ barePolicy op b = .zeroDivisorPanic op := by
  simp [checkedPolicy, barePolicy, h]

end Sys2Proof.Laws
end

