-- ==== Sys2Proof/Laws/Decode.lean ====
section
/-! SUPPORT. The small lemmas of the decoder: the fields of a command word as numbers, the table of R82 as a function,
and that the table agrees with the checks of WellFormed.lean. -/

namespace Sys2Proof.Laws

open Sys2Proof

theorem ofWord_op {lb : Nat} (c : BitVec lb) : (Cmd8.ofWord c).op.toNat = c.toNat % 32 := by
  simp [Cmd8.ofWord]

theorem ofWord_z {lb : Nat} (c : BitVec lb) : (Cmd8.ofWord c).z.toNat = c.toNat / 32 % 8 := by
  simp [Cmd8.ofWord, Nat.shiftRight_eq_div_pow]

theorem ofWord_zx {lb : Nat} (hlb : 8 ≤ lb) (c : BitVec lb) : (Cmd8.ofWord c).zx.toNat = c.toNat / 256 := by
  simp only [Cmd8.ofWord, BitVec.extractLsb'_toNat, Nat.shiftRight_eq_div_pow]
  apply Nat.mod_eq_of_lt
  apply Nat.div_lt_of_lt_mul
  calc c.toNat < 2 ^ lb := c.isLt
    _ = 2 ^ 8 * 2 ^ (lb - 8) := by rw [← Nat.pow_add]; congr 1; omega

theorem eight_le_bits (lb : LimbBits) : 8 ≤ lb.bits := by cases lb <;> decide

theorem opValue_lt (i : Instr) : opValue i < 32 := by cases i <;> decide

@[simp] theorem decodeOp_opValue (i : Instr) : decodeOp (opValue i) = some i := by cases i <;> decide

/-- An operation select stands for at most one command. -/
theorem opValue_of_decodeOp {op : Nat} {i : Instr} (h : decodeOp op = some i) : op = opValue i := by
  simp only [decodeOp, Option.map_eq_some_iff] at h
  obtain ⟨row, hrow, rfl⟩ := h
  have hop : row.1 = op := by simpa using List.find?_some hrow
  have hall : ∀ r ∈ opcodeTable, r.1 = opValue r.2 := by decide
  rw [← hop, hall row (List.mem_of_find?_eq_some hrow)]

theorem decodeOp_injective {i j : Instr} (h : opValue i = opValue j) : i = j := by
  have := decodeOp_opValue i
  rw [h, decodeOp_opValue] at this
  exact (Option.some.inj this).symm

/-- The table lists exactly the operation selects that the check of R82 accepts. -/
theorem decodeOp_isSome_iff {lb : Nat} (f : Cmd8 lb) : (decodeOp f.op.toNat).isSome = f.opListed := by
  have h : ∀ op : BitVec 5, (decodeOp op.toNat).isSome =
      ((decide (0x01 ≤ op.toNat) && decide (op.toNat ≤ 0x06)) ||
        (decide (0x08 ≤ op.toNat) && decide (op.toNat ≤ 0x15))) := by decide
  exact h f.op

/-- A word decodes to a command exactly when its fields are well formed (R80). -/
theorem decode_isOk_iff_wellFormed {lb : Nat} (c : BitVec lb) :
    (∃ i, decode c = .ok i) ↔ (Cmd8.ofWord c).wellFormed = true := by
  have hsome := decodeOp_isSome_iff (Cmd8.ofWord c)
  simp only [Cmd8.wellFormed, Bool.and_eq_true, beq_iff_eq, ← hsome]
  unfold decode
  by_cases hzx : (Cmd8.ofWord c).zx = 0
  · by_cases hz : (Cmd8.ofWord c).z = 0
    · cases h : decodeOp (Cmd8.ofWord c).op.toNat <;> simp [hzx, hz, h]
    · simp only [ne_eq, hzx, hz, not_true_eq_false, not_false_eq_true, if_true, if_false]
      simp
  · simp only [ne_eq, hzx, not_false_eq_true, if_true]
    simp

/-- What a decoded word says of its number. -/
theorem toNat_of_decode {lb : Nat} (hlb : 8 ≤ lb) {c : BitVec lb} {i : Instr} (h : decode c = .ok i) :
    c.toNat = opValue i := by
  have hzx := ofWord_zx hlb c
  have hz := ofWord_z c
  have hop := ofWord_op c
  simp only [decode] at h
  split at h
  · cases h
  · split at h
    · cases h
    · rename_i h1 h2
      have h1' : (Cmd8.ofWord c).zx = 0 := by simpa using h1
      have h2' : (Cmd8.ofWord c).z = 0 := by simpa using h2
      rw [h1'] at hzx
      rw [h2'] at hz
      split at h
      · rename_i j hj
        cases h
        have := opValue_of_decodeOp hj
        simp at hzx hz
        omega
      · cases h

end Sys2Proof.Laws
end

