-- ==== Sys2Proof/Laws/Operands.lean ====
section
/-! SUPPORT. What the primitives `msb`, `lsb` and `popcount` of 00_scope.md R11 give, said once for each. -/

namespace Sys2Proof.Laws

open Sys2Proof Sys2Proof.Machine

/-- A number below 2^W narrows to itself (R9). -/
theorem narrow_toNat_of_lt (p : Params) {v : Nat} (h : v < 2 ^ p.w) : (narrow p v).toNat = v := by
  rw [narrow_toNat, Nat.mod_eq_of_lt h]

/-- A count of at most W bits narrows to itself (the preamble of 45_rotate_count.md). -/
theorem narrow_count {p : Params} {c : Nat} (h : c ≤ p.w) : (narrow p c).toNat = c :=
  narrow_toNat_of_lt _ (Nat.lt_of_le_of_lt h (w_lt_two_pow_w _))

/-- `msb(v)` is the `k` with `2^k ≤ v < 2^(k+1)`. -/
theorem msb_spec {v : Nat} (h : v ≠ 0) : 2 ^ msb v ≤ v ∧ v < 2 ^ (msb v + 1) :=
  (Nat.log2_eq_iff h).1 rfl

/-- What the search for the lowest one bit finds: the first one bit in its range, or the range's end. -/
theorem lowestBitFrom_cases (v fuel k : Nat) :
    ((∀ j, k ≤ j → j < k + fuel → v.testBit j = false) ∧ lowestBitFrom v fuel k = k + fuel) ∨
    (k ≤ lowestBitFrom v fuel k ∧ lowestBitFrom v fuel k < k + fuel ∧
      v.testBit (lowestBitFrom v fuel k) = true ∧
      ∀ j, k ≤ j → j < lowestBitFrom v fuel k → v.testBit j = false) := by
  induction fuel generalizing k with
  | zero => exact .inl ⟨fun j h1 h2 => by omega, rfl⟩
  | succ fuel ih =>
    simp only [lowestBitFrom]
    split
    · rename_i h
      exact .inr ⟨Nat.le_refl _, by omega, h, fun j h1 h2 => by omega⟩
    · rename_i h
      have below : ∀ m, (∀ j, k + 1 ≤ j → j < m → v.testBit j = false) →
          ∀ j, k ≤ j → j < m → v.testBit j = false := by
        intro m hm j h1 h2
        rcases Nat.eq_or_lt_of_le h1 with rfl | h3
        · simpa using h
        · exact hm j h3 h2
      rcases ih (k + 1) with ⟨h1, h2⟩ | ⟨h1, h2, h3, h4⟩
      · exact .inl ⟨below _ fun j hj1 hj2 => h1 j hj1 (by omega), by omega⟩
      · exact .inr ⟨by omega, by omega, h3, below _ h4⟩

theorem lsb_le (w v : Nat) : lsb w v ≤ w := by
  rw [lsb]
  rcases lowestBitFrom_cases v w 0 with ⟨-, h⟩ | ⟨-, h, -⟩ <;> omega

@[simp] theorem popcount_zero (v : Nat) : popcount 0 v = 0 := rfl

theorem popcount_succ (w v : Nat) : popcount (w + 1) v = popcount w v + (v.testBit w).toNat := by
  simp only [popcount]
  cases v.testBit w <;> rfl

theorem popcount_le (w v : Nat) : popcount w v ≤ w := by
  induction w with
  | zero => exact Nat.le_refl _
  | succ w ih =>
    have := Bool.toNat_le (v.testBit w)
    rw [popcount_succ]
    omega

end Sys2Proof.Laws
end

