-- ==== Sys2Proof/Laws/PerInstr.lean ====
section
/-! SUPPORT. The families of statements made of each command: `CommandWord`, that the command's word has its value of
30_encoding.md R82 and only that, at every limb width. -/

namespace Sys2Proof.Laws.CommandWord

open Sys2Proof

/-- The command's word is its value of R82, with every bit above the select zero, and its select decodes to it. -/
def Statement (i : Instr) : Prop :=
  (∀ lb : LimbBits, (encode lb.bits i).toNat = opValue i) ∧ opValue i < 32 ∧ decodeOp (opValue i) = some i

/-- The value fits every limb width. -/
theorem of_value {i : Instr} (h : opValue i < 32) (h' : decodeOp (opValue i) = some i) : Statement i := by
  refine ⟨fun lb => ?_, h, h'⟩
  have h256 : 2 ^ 8 ≤ 2 ^ lb.bits := Nat.pow_le_pow_right (by decide) (eight_le_bits lb)
  simp only [encode, BitVec.toNat_ofNat]
  exact Nat.mod_eq_of_lt (by omega)

theorem add : Statement .add := of_value (by decide) (by decide)
theorem sub : Statement .sub := of_value (by decide) (by decide)
theorem mul : Statement .mul := of_value (by decide) (by decide)
theorem mulu : Statement .mulu := of_value (by decide) (by decide)
theorem divrem : Statement .divrem := of_value (by decide) (by decide)
theorem divu : Statement .divu := of_value (by decide) (by decide)
theorem and : Statement .and := of_value (by decide) (by decide)
theorem or : Statement .or := of_value (by decide) (by decide)
theorem xor : Statement .xor := of_value (by decide) (by decide)
theorem not : Statement .not := of_value (by decide) (by decide)
theorem shl : Statement .shl := of_value (by decide) (by decide)
theorem shr : Statement .shr := of_value (by decide) (by decide)
theorem rol : Statement .rol := of_value (by decide) (by decide)
theorem ror : Statement .ror := of_value (by decide) (by decide)
theorem clz : Statement .clz := of_value (by decide) (by decide)
theorem ctz : Statement .ctz := of_value (by decide) (by decide)
theorem popc : Statement .popc := of_value (by decide) (by decide)
theorem zcnt : Statement .zcnt := of_value (by decide) (by decide)
theorem ispow2 : Statement .ispow2 := of_value (by decide) (by decide)
theorem npow2 : Statement .npow2 := of_value (by decide) (by decide)

end Sys2Proof.Laws.CommandWord
end

