-- ==== Sys2Proof/Laws/Port.lean ====
section
/-! SUPPORT. The register map of 20_memory.md R51, row by row, and which accesses read STATUS. -/

namespace Sys2Proof.Laws

open Sys2Proof Sys2Proof.Machine

variable (p : Params)

theorem portReg_opa {i : Nat} (h : i < p.n) : portReg p i = .opa i := by simp [portReg, h]

theorem portReg_opb {i : Nat} (h : i < p.n) : portReg p (p.n + i) = .opb i := by
  have h1 : p.n + i < 2 * p.n := by omega
  simp [portReg, h1]

theorem portReg_res {i : Nat} (h : i < p.n) : portReg p (2 * p.n + i) = .res i := by
  have h1 : ¬ 2 * p.n + i < p.n := by omega
  have h2 : 2 * p.n + i < 3 * p.n := by omega
  simp [portReg, h1, h2]

theorem portReg_rem {i : Nat} (h : i < p.n) : portReg p (3 * p.n + i) = .rem i := by
  have h1 : ¬ 3 * p.n + i < p.n := by omega
  have h2 : ¬ 3 * p.n + i < 2 * p.n := by omega
  have h3 : 3 * p.n + i < 4 * p.n := by omega
  simp [portReg, h1, h2, h3]

theorem portReg_cmd : portReg p (4 * p.n) = .cmd := by
  have := p.pos
  have h1 : ¬ 4 * p.n < p.n := by omega
  have h2 : ¬ 4 * p.n < 2 * p.n := by omega
  have h3 : ¬ 4 * p.n < 3 * p.n := by omega
  simp [portReg, offCmd, h1, h2, h3]

theorem portReg_status : portReg p (4 * p.n + 1) = .status := by
  have := p.pos
  have h1 : ¬ 4 * p.n + 1 < p.n := by omega
  have h2 : ¬ 4 * p.n + 1 < 2 * p.n := by omega
  have h3 : ¬ 4 * p.n + 1 < 3 * p.n := by omega
  simp [portReg, offCmd, offStatus, h1, h2, h3]

theorem portReg_reserved {off : Nat} (h : 4 * p.n + 2 ≤ off) : portReg p off = .reserved := by
  have h1 : ¬ off < p.n := by omega
  have h2 : ¬ off < 2 * p.n := by omega
  have h3 : ¬ off < 3 * p.n := by omega
  have h4 : ¬ off < 4 * p.n := by omega
  have h5 : ¬ off = 4 * p.n := by omega
  have h6 : ¬ off = 4 * p.n + 1 := by omega
  simp [portReg, offCmd, offStatus, h1, h2, h3, h4, h5, h6]

/-- Every offset is in one row of the map (R51, R58). -/
theorem portReg_cases (off : Nat) :
    (∃ i, i < p.n ∧ off = i ∧ portReg p off = .opa i) ∨
    (∃ i, i < p.n ∧ off = p.n + i ∧ portReg p off = .opb i) ∨
    (∃ i, i < p.n ∧ off = 2 * p.n + i ∧ portReg p off = .res i) ∨
    (∃ i, i < p.n ∧ off = 3 * p.n + i ∧ portReg p off = .rem i) ∨
    (off = 4 * p.n ∧ portReg p off = .cmd) ∨
    (off = 4 * p.n + 1 ∧ portReg p off = .status) ∨
    (4 * p.n + 2 ≤ off ∧ portReg p off = .reserved) := by
  by_cases h1 : off < p.n
  · exact .inl ⟨off, h1, rfl, portReg_opa p h1⟩
  · refine .inr ?_
    by_cases h2 : off < 2 * p.n
    · obtain ⟨i, rfl⟩ := Nat.exists_eq_add_of_le (Nat.le_of_not_lt h1)
      have hi : i < p.n := by omega
      exact .inl ⟨i, hi, rfl, portReg_opb p hi⟩
    · refine .inr ?_
      by_cases h3 : off < 3 * p.n
      · obtain ⟨i, rfl⟩ := Nat.exists_eq_add_of_le (Nat.le_of_not_lt h2)
        have hi : i < p.n := by omega
        exact .inl ⟨i, hi, rfl, portReg_res p hi⟩
      · refine .inr ?_
        by_cases h4 : off < 4 * p.n
        · obtain ⟨i, rfl⟩ := Nat.exists_eq_add_of_le (Nat.le_of_not_lt h3)
          have hi : i < p.n := by omega
          exact .inl ⟨i, hi, rfl, portReg_rem p hi⟩
        · refine .inr ?_
          by_cases h5 : off = 4 * p.n
          · subst h5
            exact .inl ⟨rfl, portReg_cmd p⟩
          · by_cases h6 : off = 4 * p.n + 1
            · subst h6
              exact .inr (.inl ⟨rfl, portReg_status p⟩)
            · have h7 : 4 * p.n + 2 ≤ off := by omega
              exact .inr (.inr ⟨h7, portReg_reserved p h7⟩)

theorem portReg_eq_cmd_iff (off : Nat) : portReg p off = .cmd ↔ off = 4 * p.n := by
  constructor
  · intro h
    rcases portReg_cases p off with ⟨_, _, _, h'⟩ | ⟨_, _, _, h'⟩ | ⟨_, _, _, h'⟩ | ⟨_, _, _, h'⟩ | ⟨h', _⟩ |
      ⟨_, h'⟩ | ⟨_, h'⟩
    case inr.inr.inr.inr.inl => exact h'
    all_goals rw [h'] at h; cases h
  · rintro rfl
    exact portReg_cmd p

theorem portReg_eq_status_iff (off : Nat) : portReg p off = .status ↔ off = 4 * p.n + 1 := by
  constructor
  · intro h
    rcases portReg_cases p off with ⟨_, _, _, h'⟩ | ⟨_, _, _, h'⟩ | ⟨_, _, _, h'⟩ | ⟨_, _, _, h'⟩ | ⟨_, h'⟩ |
      ⟨h', _⟩ | ⟨_, h'⟩
    case inr.inr.inr.inr.inr.inl => exact h'
    all_goals rw [h'] at h; cases h
  · rintro rfl
    exact portReg_status p

variable {p}

@[simp] theorem isStatusRead_write (off : Offset p) (v : Limb p) : isStatusRead (.write off v) = false := rfl

theorem isStatusRead_read (off : Offset p) :
    isStatusRead (.read off) = true ↔ off.toNat = 4 * p.n + 1 := by
  simp [isStatusRead, portReg_eq_status_iff]

/-- An access is a read of STATUS exactly when it reads `OFF_STATUS` (R57). -/
theorem isStatusRead_eq_false_iff (a : Access p) :
    isStatusRead a = false ↔ ∀ off, a = .read off → off.toNat ≠ 4 * p.n + 1 := by
  cases a with
  | read off =>
    rw [← Bool.not_eq_true, isStatusRead_read]
    constructor
    · rintro h _ ⟨⟩
      exact h
    · intro h
      exact h off rfl
  | write off v => simp

theorem holds_of_busy {b : Block p} (h : b.status.busy = true) (a : Access p) :
    holds b a = !isStatusRead a := by simp [holds, h]

theorem holds_of_idle {b : Block p} (h : b.status.busy = false) (a : Access p) : holds b a = false := by
  simp [holds, h]

theorem offset_toNat (p : Params) {off : Nat} (h : off < 4 * p.n + 2) : (offset p off).toNat = off := by
  have := nreg_le_two_pow_addrBits p
  simp only [offset, BitVec.toNat_ofNat]
  exact Nat.mod_eq_of_lt (Nat.lt_of_lt_of_le h this)

end Sys2Proof.Laws
end

