-- ==== Sys2Proof/Laws/Step.lean ====
section
/-! SUPPORT. Runs of the machine: one step at a time, an invariant along a run, and that the host's side of the state
makes no difference to the unit's step. -/

namespace Sys2Proof.Laws

open Sys2Proof Sys2Proof.Machine

/-- A run of `k + 1` steps is a step and a run of `k`. -/
theorem run_succ_of_step (k : Nat) {s t : State} (h : step s = .next t) :
    Sys2Proof.core.run (k + 1) s = Sys2Proof.core.run k t := by
  simp only [Host.Core.run]
  rw [show Sys2Proof.core.step s = .next t from h]

/-- What every step keeps, every run keeps. -/
theorem run_keeps {Inv : State → Prop} (hstep : ∀ s t, Inv s → step s = .next t → Inv t) (k : Nat) {s t : State}
    (hs : Inv s) (hrun : Sys2Proof.core.run k s = .next t) : Inv t := by
  induction k generalizing s with
  | zero => cases hrun; exact hs
  | succ k ih =>
    cases h : step s with
    | next u => exact ih (hstep s u hs h) (by rw [← run_succ_of_step k h]; exact hrun)
    | fault r => cases r
    | refused r =>
      simp only [Host.Core.run] at hrun
      rw [show Sys2Proof.core.step s = .refused r from h] at hrun
      cases hrun

/-- While a command is in flight, the host's turn changes no register (R57). -/
theorem hostStep_of_busy {s : State} (hb : s.block.status.busy = true) :
    ∃ held script reads, hostStep s =
      { params := s.params, block := s.block, held := held, script := script, reads := reads, sched := s.sched } := by
  obtain ⟨b, ⟨held, script, reads, h⟩, rfl | ⟨hidle, -⟩⟩ := hostStep_block s
  · exact ⟨held, script, reads, h⟩
  · rw [hb] at hidle
    cases hidle

/-- The meanings read and write the block alone. -/
theorem exec_of_block (i : Instr) (s : State) (held : Option (Access s.params)) (script : List (Access s.params))
    (reads : List (Limb s.params)) (sched : List Turn) {b : Block s.params} (h : exec i s = .next (s.withBlock b)) :
    exec i { params := s.params, block := s.block, held := held, script := script, reads := reads, sched := sched } =
      .next { params := s.params, block := b, held := held, script := script, reads := reads, sched := sched } := by
  have division : ∀ d, divideBy s d = .next (s.withBlock b) →
      divideBy { params := s.params, block := s.block, held := held, script := script, reads := reads,
                 sched := sched } d =
        .next { params := s.params, block := b, held := held, script := script, reads := reads, sched := sched } := by
    intro d hd
    rcases divideBy_cases s d with ⟨h0, h1⟩ | ⟨h0, h1⟩
    · rw [h1] at hd
      have hb : complete s.block s.block.res s.block.rem false true false = b := by
        simpa [completeDbz, State.withBlock] using hd
      rw [← hb]
      simp [divideBy, h0, completeDbz, State.withBlock]
    · rw [h1] at hd
      have hb : complete s.block (narrow s.params (operandA s.block / d)) (narrow s.params (operandA s.block % d))
          false false false = b := by
        simpa [completeDivision, State.withBlock] using hd
      rw [← hb]
      simp [divideBy, h0, completeDivision, State.withBlock]
  have result : ∀ res ovf, completeResult s res ovf = .next (s.withBlock b) →
      completeResult { params := s.params, block := s.block, held := held, script := script, reads := reads,
                       sched := sched } res ovf =
        .next { params := s.params, block := b, held := held, script := script, reads := reads, sched := sched } := by
    intro res ovf hr
    have hb : complete s.block res s.block.rem ovf false false = b := by
      simpa [completeResult, State.withBlock] using hr
    rw [← hb]
    rfl
  cases i
  case divrem => exact division _ h
  case divu => exact division _ h
  all_goals exact result _ _ h

end Sys2Proof.Laws
end

