-- ==== Sys2Proof/Tests/Slice0.lean ====
section
/-! SUPPORT. The model's own tests. Expected values are from the spec: 30_encoding.md R82 and R83 for the words,
95_test_vectors.md L1 and L2 for results, its protocol table for the port. The witnesses show that the hypotheses of the
statements are met. -/

namespace Sys2Proof.Tests

open Sys2Proof Sys2Proof.Machine Sys2Proof.Laws

/-! ### Well-formedness: one ill-formed term for each check -/

theorem test_wellFormed_refuses_op00 : (⟨0x00#5, 0, 0⟩ : Cmd8 8).wellFormed = false := by decide
theorem test_wellFormed_refuses_op07 : (⟨0x07#5, 0, 0⟩ : Cmd8 8).wellFormed = false := by decide
theorem test_wellFormed_refuses_op16 : (⟨0x16#5, 0, 0⟩ : Cmd8 8).wellFormed = false := by decide
theorem test_wellFormed_refuses_z : (⟨0x01#5, 1, 0⟩ : Cmd8 8).wellFormed = false := by decide
theorem test_wellFormed_refuses_zx : (⟨0x01#5, 0, 1⟩ : Cmd8 16).wellFormed = false := by decide
theorem test_wellFormed_accepts : (⟨0x15#5, 0, 0⟩ : Cmd8 16).wellFormed = true := by decide

/-! ### Decoding: R82's values bit by bit, R83's illegal ones -/

theorem test_decode_add : decode (0b00000001#8) = .ok .add := by decide
theorem test_decode_sub : decode (0b00000010#8) = .ok .sub := by decide
theorem test_decode_mul : decode (0b00000011#8) = .ok .mul := by decide
theorem test_decode_mulu : decode (0b00000100#8) = .ok .mulu := by decide
theorem test_decode_divrem : decode (0b00000101#8) = .ok .divrem := by decide
theorem test_decode_divu : decode (0b00000110#8) = .ok .divu := by decide
theorem test_decode_and : decode (0b00001000#8) = .ok .and := by decide
theorem test_decode_or : decode (0b00001001#8) = .ok .or := by decide
theorem test_decode_xor : decode (0b00001010#8) = .ok .xor := by decide
theorem test_decode_not : decode (0b00001011#8) = .ok .not := by decide
theorem test_decode_shl : decode (0b00001100#8) = .ok .shl := by decide
theorem test_decode_shr : decode (0b00001101#8) = .ok .shr := by decide
theorem test_decode_rol : decode (0b00001110#8) = .ok .rol := by decide
theorem test_decode_ror : decode (0b00001111#8) = .ok .ror := by decide
theorem test_decode_clz : decode (0b00010000#8) = .ok .clz := by decide
theorem test_decode_ctz : decode (0b00010001#8) = .ok .ctz := by decide
theorem test_decode_popc : decode (0b00010010#8) = .ok .popc := by decide
theorem test_decode_zcnt : decode (0b00010011#8) = .ok .zcnt := by decide
theorem test_decode_ispow2 : decode (0b00010100#8) = .ok .ispow2 := by decide
theorem test_decode_npow2 : decode (0b00010101#8) = .ok .npow2 := by decide
theorem test_decode_wide_limb : decode (0x00000000000000000000000000000015#128) = .ok .npow2 := by decide
theorem test_decode_rejects_op : decode (0x1F#8) = .error .opNotListed := by decide
theorem test_decode_rejects_z : decode (0x21#8) = .error .zNotZero := by decide
theorem test_decode_rejects_ff : decode (0xFF#8) = .error .zNotZero := by decide
theorem test_decode_rejects_zx : decode (0x0101#16) = .error .zxNotZero := by decide
theorem test_decodeTableWord : decodeTableWord 8 0x0D = some .shr := by decide
theorem test_decodeTableWord_illegal : decodeTableWord 8 0x07 = none := by decide

/-! ### Results: one step of a busy machine, by 95_test_vectors.md -/

/-- A machine of the parameters `p` whose command `c` is in flight on `a` and `b`, RES and REM holding `r` and `q`. -/
def inFlight (p : Params) (c a b r q : Nat) : State :=
  { params := p
    block := { opa := narrow p a, opb := narrow p b, res := narrow p r, rem := narrow p q,
               status := { busy := true, ovf := false, dbz := false, ill := true },
               pend := BitVec.ofNat _ c, lopa := narrow p a, lopb := narrow p b }
    held := none, script := [], reads := [], sched := [] }

/-- RES, REM and the STATUS word of a next state. -/
def results : StepOutcome → Option (Nat × Nat × Nat)
  | .next t => some (t.block.res.toNat, t.block.rem.toNat, (statusWord t.params t.block.status).toNat)
  | .fault _ => none
  | .refused _ => none

/-- One step of the 8-bit-limb, 32-bit-wide type with the command word `c` in flight. -/
def stepOf (c a b : Nat) : Option (Nat × Nat × Nat) := results (step (inFlight Params.n4lb8 c a b 0xAA 0xBB))

theorem test_add_carries_out : stepOf 0x01 0xFFFFFFFF 0x00000001 = some (0, 0xBB, 2) := by decide
theorem test_add_carries_between_limbs : stepOf 0x01 0x000000FF 0x00000001 = some (0x00000100, 0xBB, 0) := by decide
theorem test_sub_borrows_out : stepOf 0x02 0x00000000 0x00000001 = some (0xFFFFFFFF, 0xBB, 2) := by decide
theorem test_sub_no_borrow : stepOf 0x02 0x12345678 0x11111111 = some (0x01234567, 0xBB, 0) := by decide
theorem test_mul_fits : stepOf 0x03 0x0000FFFF 0x0000FFFF = some (0xFFFE0001, 0xBB, 0) := by decide
theorem test_mul_overflows_to_zero : stepOf 0x03 0x00010000 0x00010000 = some (0, 0xBB, 2) := by decide
theorem test_mulu_ignores_upper_limbs : stepOf 0x04 0x01000000 0x000001FF = some (0xFF000000, 0xBB, 0) := by decide
theorem test_mulu_overflows : stepOf 0x04 0x01020304 0x000000FF = some (0x010100FC, 0xBB, 2) := by decide
theorem test_divrem : stepOf 0x05 0x00000064 0x00000007 = some (0x0E, 0x02, 0) := by decide
theorem test_divrem_by_zero_keeps : stepOf 0x05 0x00000005 0x00000000 = some (0xAA, 0xBB, 4) := by decide
theorem test_divu : stepOf 0x06 0x000003E8 0x00000107 = some (0x8E, 0x06, 0) := by decide
theorem test_divu_by_zero_unit_keeps : stepOf 0x06 0x00000007 0x00000100 = some (0xAA, 0xBB, 4) := by decide
theorem test_and : stepOf 0x08 0xF0F0F0F0 0xFF00FF00 = some (0xF000F000, 0xBB, 0) := by decide
theorem test_or : stepOf 0x09 0xF0F0F0F0 0x0F00FF00 = some (0xFFF0FFF0, 0xBB, 0) := by decide
theorem test_xor : stepOf 0x0A 0xFFFF0000 0xFF00FF00 = some (0x00FFFF00, 0xBB, 0) := by decide
theorem test_not : stepOf 0x0B 0x0000FFFF 0x00001234 = some (0xFFFF0000, 0xBB, 0) := by decide
theorem test_shl_across_limbs : stepOf 0x0C 0x000000FF 0x0000000C = some (0x000FF000, 0xBB, 0) := by decide
theorem test_shl_by_width : stepOf 0x0C 0x12345678 0x00000020 = some (0, 0xBB, 2) := by decide
theorem test_shr_across_limbs : stepOf 0x0D 0xFF000000 0x0000000C = some (0x000FF000, 0xBB, 0) := by decide
theorem test_shr_by_31 : stepOf 0x0D 0x80000000 0x0000001F = some (1, 0xBB, 0) := by decide
theorem test_rol : stepOf 0x0E 0x12345678 0x00000024 = some (0x23456781, 0xBB, 0) := by decide
theorem test_rol_by_width : stepOf 0x0E 0x12345678 0x00000020 = some (0x12345678, 0xBB, 0) := by decide
theorem test_ror : stepOf 0x0F 0x12345678 0x00000008 = some (0x78123456, 0xBB, 0) := by decide
theorem test_ror_by_31 : stepOf 0x0F 0x12345678 0xFFFFFFFF = some (0x2468ACF0, 0xBB, 0) := by decide
theorem test_clz : stepOf 0x10 0x00010000 0 = some (0x0F, 0xBB, 0) := by decide
theorem test_clz_of_zero : stepOf 0x10 0 0 = some (0x20, 0xBB, 0) := by decide
theorem test_ctz : stepOf 0x11 0x00000100 0 = some (0x08, 0xBB, 0) := by decide
theorem test_ctz_of_zero : stepOf 0x11 0 0 = some (0x20, 0xBB, 0) := by decide
theorem test_popc : stepOf 0x12 0x12345678 0 = some (0x0D, 0xBB, 0) := by decide
theorem test_zcnt : stepOf 0x13 0x12345678 0 = some (0x13, 0xBB, 0) := by decide
theorem test_ispow2 : stepOf 0x14 0x00010000 0 = some (1, 0xBB, 0) := by decide
theorem test_ispow2_two_limbs : stepOf 0x14 0x00010001 0 = some (0, 0xBB, 0) := by decide
theorem test_npow2 : stepOf 0x15 0x00010001 0 = some (0x00020000, 0xBB, 0) := by decide
theorem test_npow2_overflows : stepOf 0x15 0x80000001 0 = some (0, 0xBB, 2) := by decide
theorem test_illegal_07 : stepOf 0x07 0x64 0x07 = some (0xAA, 0xBB, 8) := by decide

/-- R191's width that is no power of two (W = 192: N = 3, LB = 64). -/
theorem test_rol_192 :
    results (step (inFlight ⟨.lb64, 3, by decide⟩ 0x0E 0x0123456789abcdeffedcba987654321000000000000000ff 200 0 0)) =
      some (0x23456789abcdeffedcba987654321000000000000000ff01, 0, 0) := by decide

/-- The smallest type (W = 8: N = 1, LB = 8): DIVU of FF by 10. -/
theorem test_divu_smallest :
    results (step (inFlight ⟨.lb8, 1, by decide⟩ 0x06 0xFF 0x10 0 0)) = some (0x0F, 0x0F, 0) := by decide

/-- LB = 16, CMD 0x0101: illegal, `zx ≠ 0`. -/
theorem test_illegal_zx :
    results (step (inFlight ⟨.lb16, 2, by decide⟩ 0x0101 1 1 5 6)) = some (5, 6, 8) := by decide

/-- The word of a table row, placed after reset, is what the next step runs: NOT 0 is `max_value()` (R163). -/
theorem test_withFetchWord : results (step (State.reset.withFetchWord 8 0x0B)) = some (0xFFFFFFFF, 0, 0) := by decide

/-! ### The port, by the protocol vectors of 95_test_vectors.md -/

/-- The 8-bit-limb, 32-bit-wide type after reset, with these accesses to come and these turns. -/
def hosted (script : List (Access Params.n4lb8)) (sched : List Turn) : State :=
  { State.resetOf Params.n4lb8 with script := script, sched := sched }

/-- BUSY = 1 with ILL left by the command before, the command 0x21 in flight. -/
def busyStale (script : List (Access Params.n4lb8)) (sched : List Turn) : State :=
  { inFlight Params.n4lb8 0x21 0 0 0x8E 6 with script := script, sched := sched }

/-- The words that the host has read after `k` steps. -/
def readsAfter (k : Nat) (s : State) : Option (List Nat) :=
  match Sys2Proof.core.run k s with
  | .next t => some (t.reads.map BitVec.toNat)
  | .fault _ => none
  | .refused _ => none

theorem test_offset_bits : Params.n4lb8.addrBits = 5 := by decide
theorem test_map_status : portReg Params.n4lb8 17 = .status := by decide
theorem test_map_reserved : portReg Params.n4lb8 18 = .reserved := by decide
theorem test_write_res_ignored :
    portWrite (inFlight Params.n4lb8 0 1 2 3 4).block (offset _ 8) 0x5A = (inFlight Params.n4lb8 0 1 2 3 4).block := by
  decide
theorem test_stale_status_while_busy :
    readsAfter 1 (busyStale [.read (offset _ 17)] [.host]) = some [0x09] := by decide
theorem test_status_after_completion :
    readsAfter 2 (busyStale [.read (offset _ 17)] [.unit]) = some [0x08] := by decide
theorem test_read_holds_until_completion :
    readsAfter 3 (busyStale [.read (offset _ 8)] [.host, .unit]) = some [0x8E] := by decide
theorem test_reset_abandons_held :
    readsAfter 3 (busyStale [.read (offset _ 8)] [.host, .reset]) = some [] := by decide
theorem test_lda_listing : writeListing (offset Params.n4lb8 0) (0x78#8) = "W 0, 0x78" := by decide
theorem test_read_listing : readListing (offset Params.n4lb8 12) (0x06#8) = "R 12 -> 0x06" := by decide
theorem test_go_listing : commandListing Params.n4lb8 .add = "W 16, ADD" := by decide
theorem test_little_endian : littleEndianByte (narrow Params.n4lb8 0x12345678) 0 = 0x78 := by decide
theorem test_big_endian : bigEndianByte (narrow Params.n4lb8 0x12345678) 0 = 0x12 := by decide

/-! ### Witnesses: the hypotheses of the statements are met -/

theorem witness_bounds : 31 < Params.n4lb8.w ∧ 3 < Params.n4lb8.n ∧ 0 < Params.n4lb8.lb / 8 ∧
    3 < Params.n4lb8.bytes := by decide

theorem witness_unit_turn : (busyStale [] [.unit]).block.status.busy = true ∧
    decode (busyStale [] [.unit]).block.pend = .error .zNotZero ∧ (busyStale [] [.unit]).sched = .unit :: [] :=
  ⟨rfl, rfl, rfl⟩

theorem witness_pending_command : (inFlight Params.n4lb8 0x15 1 1 0 0).block.status.busy = true ∧
    decode (inFlight Params.n4lb8 0x15 1 1 0 0).block.pend = .ok .npow2 ∧
    (inFlight Params.n4lb8 0x15 1 1 0 0).sched = [] ∧
    ({ inFlight Params.n4lb8 0x15 1 1 0 0 with sched := [.unit] } : State).sched = .unit :: [] :=
  ⟨rfl, rfl, rfl, rfl⟩

/-- The same turns with nothing in `sched`: an illegal command in flight, and an idle block with and without an access. -/
theorem witness_empty_sched :
    (busyStale [] []).block.status.busy = true ∧ decode (busyStale [] []).block.pend = .error .zNotZero ∧
    (busyStale [] []).sched = [] ∧
    (hosted [.write (offset _ 16) 1] []).block.status.busy = false ∧ (hosted [.write (offset _ 16) 1] []).held = none ∧
    (hosted [.write (offset _ 16) 1] []).script = .write (offset _ 16) 1 :: [] ∧
    (hosted [.write (offset _ 16) 1] []).sched = [] ∧
    (hosted [] []).held = none ∧ (hosted [] []).script = [] ∧ (hosted [] []).sched = [] :=
  ⟨rfl, rfl, rfl, rfl, rfl, rfl, rfl, rfl, rfl, rfl⟩

theorem witness_idle_unit : (hosted [] [.unit]).block.status.busy = false ∧ (hosted [] [.unit]).sched = .unit :: [] :=
  ⟨rfl, rfl⟩

theorem witness_command_write :
    (hosted [.write (offset _ 16) 1] [.host]).block.status.busy = false ∧
    (hosted [.write (offset _ 16) 1] [.host]).held = none ∧
    (hosted [.write (offset _ 16) 1] [.host]).script = .write (offset _ 16) 1 :: [] ∧
    (offset Params.n4lb8 16).toNat = 4 * Params.n4lb8.n ∧
    (hosted [.write (offset _ 16) 1] [.host]).sched = .host :: [] := ⟨rfl, rfl, rfl, by decide, rfl⟩

theorem witness_hold_begins :
    (busyStale [.read (offset _ 16)] [.host]).block.status.busy = true ∧
    (busyStale [.read (offset _ 16)] [.host]).sched = .host :: [] ∧
    (busyStale [.read (offset _ 16)] [.host]).held = none ∧
    (busyStale [.read (offset _ 16)] [.host]).script = .read (offset _ 16) :: [] ∧
    (offset Params.n4lb8 16).toNat ≠ 4 * Params.n4lb8.n + 1 := ⟨rfl, rfl, rfl, rfl, by decide⟩

theorem witness_hold_goes_on :
    ({ busyStale [] [.host] with held := some (.write (offset Params.n4lb8 17) 0) } : State).held =
      some (.write (offset Params.n4lb8 17) 0) ∧
    ∀ off, (Access.write (offset Params.n4lb8 17) 0 : Access Params.n4lb8) = .read off →
      off.toNat ≠ 4 * Params.n4lb8.n + 1 := by
  refine ⟨rfl, ?_⟩
  intro off h
  cases h

theorem witness_status_read :
    (busyStale [.read (offset _ 17)] [.host]).held = none ∧
    (busyStale [.read (offset _ 17)] [.host]).script = .read (offset _ 17) :: [] ∧
    (offset Params.n4lb8 17).toNat = 4 * Params.n4lb8.n + 1 ∧
    (busyStale [.read (offset _ 17)] [.host]).sched = .host :: [] := ⟨rfl, rfl, by decide, rfl⟩

theorem witness_idle_host :
    (hosted [.read (offset _ 0)] [.host]).block.status.busy = false ∧
    (hosted [.read (offset _ 0)] [.host]).sched = .host :: [] ∧
    (hosted [.read (offset _ 0)] [.host]).held = none ∧
    (hosted [.read (offset _ 0)] [.host]).script = .read (offset _ 0) :: [] ∧
    (hosted [.write (offset _ 7) 9] [.host]).script = .write (offset _ 7) 9 :: [] ∧
    ({ hosted [] [.host] with held := some (.read (offset Params.n4lb8 15)) } : State).held =
      some (.read (offset Params.n4lb8 15)) ∧
    ({ hosted [] [.host] with held := some (.write (offset Params.n4lb8 16) 1) } : State).held =
      some (.write (offset Params.n4lb8 16) 1) := ⟨rfl, rfl, rfl, rfl, rfl, rfl, rfl⟩

theorem witness_reset_turn : (busyStale [] [.reset]).sched = .reset :: [] := rfl

theorem witness_divisors :
    (inFlight Params.n4lb8 5 5 0 0 0).block.lopb.toNat = 0 ∧
    (inFlight Params.n4lb8 5 5 1 0 0).block.lopb.toNat ≠ 0 ∧
    limbNat (inFlight Params.n4lb8 6 5 0x100 0 0).block.lopb 0 = 0 ∧
    limbNat (inFlight Params.n4lb8 6 5 0xFF 0 0).block.lopb 0 ≠ 0 := by decide

theorem witness_shift_amounts :
    Params.n4lb8.w ≤ (inFlight Params.n4lb8 0x0C 1 32 0 0).block.lopb.toNat ∧
    (inFlight Params.n4lb8 0x0C 1 31 0 0).block.lopb.toNat < Params.n4lb8.w := by decide

theorem witness_rotate_amounts :
    (inFlight Params.n4lb8 0x0E 1 32 0 0).block.lopb.toNat % Params.n4lb8.w = 0 ∧
    (inFlight Params.n4lb8 0x0E 1 31 0 0).block.lopb.toNat % Params.n4lb8.w ≠ 0 := by decide

theorem witness_zero_operand : (inFlight Params.n4lb8 0x10 0 0 0 0).block.lopa.toNat = 0 := by decide

/-- Bit 31 is the only one bit of 2^31, so it is its highest and its lowest. -/
theorem witness_highest_and_lowest_one :
    IsHighestOne (inFlight Params.n4lb8 0x10 0x80000000 0 0 0).block.lopa.toNat 31 ∧
    IsLowestOne (inFlight Params.n4lb8 0x10 0x80000000 0 0 0).block.lopa.toNat 31 := by
  have h : (inFlight Params.n4lb8 0x10 0x80000000 0 0 0).block.lopa.toNat = 2 ^ 31 := by decide
  rw [h]
  refine ⟨⟨by decide, fun j hj => ?_⟩, ⟨by decide, fun j hj => ?_⟩⟩ <;> rw [Nat.testBit_two_pow] <;> simp <;> omega

theorem witness_npow2_bounds :
    2 ^ (Params.n4lb8.w - 1) < (inFlight Params.n4lb8 0x15 0x80000001 0 0 0).block.lopa.toNat ∧
    (inFlight Params.n4lb8 0x15 0x80000000 0 0 0).block.lopa.toNat ≤ 2 ^ (Params.n4lb8.w - 1) := by decide

theorem witness_map_offsets :
    (offset Params.n4lb8 3).toNat = 3 ∧ (offset Params.n4lb8 7).toNat = Params.n4lb8.n + 3 ∧
    (offset Params.n4lb8 11).toNat = 2 * Params.n4lb8.n + 3 ∧ (offset Params.n4lb8 15).toNat = 3 * Params.n4lb8.n + 3 ∧
    (offset Params.n4lb8 16).toNat = 4 * Params.n4lb8.n ∧ (offset Params.n4lb8 17).toNat = 4 * Params.n4lb8.n + 1 ∧
    4 * Params.n4lb8.n + 2 ≤ (offset Params.n4lb8 18).toNat := by decide

theorem witness_write_offsets :
    (offset Params.n4lb8 7).toNat < 2 * Params.n4lb8.n ∧ offset Params.n4lb8 0 ≠ offset Params.n4lb8 7 ∧
    2 * Params.n4lb8.n ≤ (offset Params.n4lb8 8).toNat ∧ (offset Params.n4lb8 15).toNat < 4 * Params.n4lb8.n ∧
    4 * Params.n4lb8.n + 1 ≤ (offset Params.n4lb8 31).toNat := by decide

theorem witness_addrBits : 4 * Params.n4lb8.n + 2 ≤ 2 ^ 5 := by decide

/-- A consistent state with a step: a command in flight, its operands latched. -/
theorem witness_consistent_step :
    (inFlight Params.n4lb8 0x01 1 2 0 0).Consistent ∧ ∃ t, step (inFlight Params.n4lb8 0x01 1 2 0 0) = .next t := by
  refine ⟨⟨fun _ => ⟨rfl, rfl⟩, ?_, ?_⟩, _, rfl⟩
  · simp [inFlight, Status.AtMostOneCondition]
  · intro a h
    cases h

theorem witness_latency :
    (busyStale [] [.host, .unit]).block.status.busy = true ∧
    (busyStale [] [.host, .unit]).sched = List.replicate 1 .host ++ .unit :: [] ∧
    (∀ turn ∈ (busyStale [] [.host, .unit]).sched, turn ≠ Turn.reset) := by
  refine ⟨rfl, rfl, ?_⟩
  decide

/-- A division changes REM, and a completion and a reset do. -/
theorem witness_rem_changes :
    ∃ t, step (inFlight Params.n4lb8 0x05 100 7 0 0) = .next t ∧
      t.block.rem.toNat ≠ (inFlight Params.n4lb8 0x05 100 7 0 0).block.rem.toNat := by
  refine ⟨_, rfl, ?_⟩
  decide

theorem witness_no_reset_next : ¬(busyStale [] [.host]).ResetNext ∧ ¬(hosted [] [.host]).ResetNext := by
  constructor <;> intro h <;> cases h

/-- A host turn while busy stays busy, and one while idle starts idle. -/
theorem witness_results_kept :
    (∃ t, step (busyStale [] [.host]) = .next t ∧ t.block.status.busy = true) ∧
    (∃ t, step (hosted [] [.host]) = .next t ∧ (hosted [] [.host]).block.status.busy = false) :=
  ⟨⟨_, rfl, rfl⟩, ⟨_, rfl, rfl⟩⟩

theorem witness_issue :
    ∃ t, step (hosted [.write (offset _ 16) 1] [.host]) = .next t ∧
      (hosted [.write (offset _ 16) 1] [.host]).block.status.busy = false ∧ t.block.status.busy = true := by
  refine ⟨_, rfl, rfl, ?_⟩
  decide

end Sys2Proof.Tests
end

section
/-! SUPPORT. Proofs of the statements of 00_scope.md: the order of the limbs is the numeric order (R10), every step
answers a next state with the same parameters (R5, R27, R50, R236), and ADDR_BITS is least (R6). -/

namespace Sys2Proof.Proofs

open Sys2Proof Sys2Proof.Machine Sys2Proof.Laws

/-! ### The order of the limbs (R10) -/

/-- Of two numbers written as a top digit over a part below `B`, the digit decides where it differs, the lower part
where it does not. -/
theorem lt_iff_topDigit_decides {a b u v B : Nat} (ha : a < B) (hb : b < B) :
    a + u * B < b + v * B ↔ if u = v then a < b else u < v := by
  rcases Nat.lt_trichotomy u v with huv | rfl | huv
  · have hmul : (u + 1) * B ≤ v * B := Nat.mul_le_mul_right _ huv
    rw [Nat.succ_mul] at hmul
    rw [if_neg huv.ne]
    omega
  · rw [if_pos rfl]
    omega
  · have hmul : (v + 1) * B ≤ u * B := Nat.mul_le_mul_right _ huv
    rw [Nat.succ_mul] at hmul
    rw [if_neg huv.ne']
    omega

/-- The comparison by the limbs below `k` compares the values below limb `k`. -/
theorem limbLess_iff_mod_lt {p : Params} (x y : Wide p) (k : Nat) :
    limbLess x y k = true ↔ x.toNat % 2 ^ (p.lb * k) < y.toNat % 2 ^ (p.lb * k) := by
  induction k with
  | zero => simp [limbLess, Nat.mod_one]
  | succ k ih =>
    rw [mod_limb_succ, mod_limb_succ,
      lt_iff_topDigit_decides (Nat.mod_lt _ (Nat.two_pow_pos _)) (Nat.mod_lt _ (Nat.two_pow_pos _)), ← ih, limbLess]
    split
    · rfl
    · exact decide_eq_true_iff

/-- The comparison by all N limbs compares the values (R10). -/
theorem limbLess_iff_toNat_lt {p : Params} (x y : Wide p) : limbLess x y p.n = true ↔ x.toNat < y.toNat := by
  rw [limbLess_iff_mod_lt, mod_all_limbs, mod_all_limbs]

/-- Settles O17: equality by `eq_of_limbs_eq`, the order by induction on the limbs compared. -/
theorem limbOrderIsNumericOrder : Obligations.LimbOrderIsNumericOrder := by
  intro p x y
  refine ⟨⟨?_, eq_of_limbs_eq⟩, limbLess_iff_toNat_lt x y⟩
  rintro rfl i -
  rfl

/-! ### Every step answers a next state (R27, R50, R236) -/

/-- The host's turn keeps the parameters (R5). -/
@[simp] theorem hostStep_params (s : State) : (hostStep s).params = s.params := by
  obtain ⟨b, ⟨held, script, reads, h⟩, -⟩ := hostStep_block s
  rw [h]

/-- The unit's step completes, and keeps the parameters: PEND is completed whatever command value it holds (R27, R232). -/
theorem unitStep_answers_next (s : State) : ∃ t : State, unitStep s = .next t ∧ t.params = s.params := by
  obtain ⟨res, rem, ovf, dbz, ill, h, -⟩ := unitStep_next s
  exact ⟨_, h, rfl⟩

/-- Settles O52, by the turns that a step can take: the host's, a completion, a turn that passes, or a reset. -/
theorem everyStepAnswersNext : Obligations.EveryStepAnswersNext := by
  intro s
  obtain ⟨s', rfl, h | ⟨-, h⟩ | ⟨-, h⟩ | ⟨-, h⟩⟩ := step_cases s
  · exact ⟨_, h, hostStep_params _⟩
  · rw [h]
    exact unitStep_answers_next _
  · exact ⟨_, h, rfl⟩
  · exact ⟨_, h, resetStep_params _⟩

/-! ### The width of an offset (R6) -/

/-- ADDR_BITS is at most every width that can express NREG offsets (R6). -/
theorem addrBits_le_of_nreg_le (p : Params) {k : Nat} (h : p.nreg ≤ 2 ^ k) : p.addrBits ≤ k :=
  (Nat.log2_lt (Nat.succ_ne_zero _)).2 h

/-- Settles O44: ADDR_BITS suffices by `nreg_le_two_pow_addrBits`, and no smaller width does. -/
theorem addrBitsIsLeast : Obligations.AddrBitsIsLeast :=
  fun p => ⟨nreg_le_two_pow_addrBits p, fun _ => addrBits_le_of_nreg_le p⟩

end Sys2Proof.Proofs
end

section
/-! SUPPORT. Proofs of the statements of 10_state.md: the STATUS word (R24), the reset state (R32), what a turn of the
unit, of the host and of the reset input does, what one step can do to the registers, the invariant that every step
keeps (R29, R57, R233), and that the latency makes no difference (R272). -/

namespace Sys2Proof.Proofs

open Sys2Proof Sys2Proof.Machine Sys2Proof.Laws

/-! ### The STATUS word (R24) and the reset state (R32) -/

/-- The number whose bits 0 to 3 are four given bits has those bits. -/
theorem testBit_of_four_bits : ∀ b₀ b₁ b₂ b₃ : Bool,
    (b₀.toNat + 2 * b₁.toNat + 4 * b₂.toNat + 8 * b₃.toNat).testBit 0 = b₀ ∧
    (b₀.toNat + 2 * b₁.toNat + 4 * b₂.toNat + 8 * b₃.toNat).testBit 1 = b₁ ∧
    (b₀.toNat + 2 * b₁.toNat + 4 * b₂.toNat + 8 * b₃.toNat).testBit 2 = b₂ ∧
    (b₀.toNat + 2 * b₁.toNat + 4 * b₂.toNat + 8 * b₃.toNat).testBit 3 = b₃ := by
  decide

/-- A bit of the STATUS word below the limb width is that bit of the number that the four flags make. -/
theorem statusWord_getLsbD (p : Params) (f : Status) (k : Nat) :
    (statusWord p f).getLsbD k = (decide (k < p.lb) &&
      (f.busy.toNat + 2 * f.ovf.toNat + 4 * f.dbz.toNat + 8 * f.ill.toNat).testBit k) :=
  BitVec.getLsbD_ofNat _ _ _

/-- The reserved bits of the STATUS word are 0: the four flags make a number below 16. -/
theorem statusWord_reserved (p : Params) (f : Status) {k : Nat} (hk : 4 ≤ k) :
    (statusWord p f).getLsbD k = false := by
  have hbusy := Bool.toNat_le f.busy
  have hovf := Bool.toNat_le f.ovf
  have hdbz := Bool.toNat_le f.dbz
  have hill := Bool.toNat_le f.ill
  have hpow : 2 ^ 4 ≤ 2 ^ k := Nat.pow_le_pow_right (by decide) hk
  rw [statusWord_getLsbD, Nat.testBit_lt_two_pow (by omega), Bool.and_false]

/-- Settles O46: the four flags by their bits, which every limb width has room for, and the rest by
`statusWord_reserved`. -/
theorem statusWordBits : Obligations.StatusWordBits := by
  intro p f
  have hlb := eight_le_lb p
  obtain ⟨h₀, h₁, h₂, h₃⟩ := testBit_of_four_bits f.busy f.ovf f.dbz f.ill
  have hroom : ∀ k, k < 8 → decide (k < p.lb) = true := fun k hk => decide_eq_true (by omega)
  simp only [statusWord_getLsbD p f 0, statusWord_getLsbD p f 1, statusWord_getLsbD p f 2, statusWord_getLsbD p f 3,
    hroom, Nat.reduceLT, h₀, h₁, h₂, h₃, Bool.true_and, true_and]
  exact fun k => statusWord_reserved p f

/-- Settles O12: the reset block is R32's table, and its STATUS word has no bit set. -/
theorem resetValues : Obligations.ResetValues :=
  ⟨fun _ => ⟨rfl, rfl⟩, rfl⟩

/-! ### One turn -/

theorem withSched_self {s : State} {turns : List Turn} (h : s.sched = turns) : { s with sched := turns } = s := by
  subst h
  rfl

theorem step_of_turn {s : State} {t : Turn} {turns : List Turn} (h : s.sched = t :: turns) :
    step s = takeTurn t { s with sched := turns } := by
  simp [step, h]

theorem step_of_no_turn {s : State} (h : s.sched = []) : step s = takeTurn (enabledTurn s) s := by
  simp [step, h]

theorem takeTurn_unit_of_busy {s : State} (h : s.block.status.busy = true) : takeTurn .unit s = unitStep s := if_pos h

theorem takeTurn_unit_of_idle {s : State} (h : s.block.status.busy = false) : takeTurn .unit s = .next s := by
  simp [takeTurn, h]

/-- The unit moves while BUSY is 1, at its turn and where `sched` is empty (R27, log 2). -/
theorem step_eq_unitStep {s : State} {turns : List Turn} (hb : s.block.status.busy = true)
    (h : s.sched = .unit :: turns ∨ s.sched = [] ∧ turns = []) : step s = unitStep { s with sched := turns } := by
  rcases h with h | ⟨h, rfl⟩
  · exact (step_of_turn h).trans (takeTurn_unit_of_busy hb)
  · rw [step_of_no_turn h, withSched_self h, enabledTurn, if_pos hb, takeTurn_unit_of_busy hb]

/-- The host moves while BUSY is 0, at its turn and where `sched` is empty (log 2). -/
theorem step_eq_hostStep {s : State} {turns : List Turn} (hb : s.block.status.busy = false)
    (h : s.sched = .host :: turns ∨ s.sched = [] ∧ turns = []) :
    step s = .next (hostStep { s with sched := turns }) := by
  rcases h with h | ⟨h, rfl⟩
  · exact step_of_turn h
  · rw [step_of_no_turn h, withSched_self h, enabledTurn, hb]
    rfl

theorem unitStep_of_legal {s : State} {i : Instr} (h : decode s.block.pend = .ok i) : unitStep s = exec i s := by
  simp [unitStep, h]

theorem unitStep_of_illegal {s : State} {why : IllegalCommand} (h : decode s.block.pend = .error why) :
    unitStep s = completeIllegal s why := by
  simp [unitStep, h]

/-- With none held, the host's turn performs its next access unless that holds (R57). -/
theorem hostStep_performs_next {s : State} {a : Access s.params} {rest : List (Access s.params)}
    (hheld : s.held = none) (hscript : s.script = a :: rest) (hholds : holds s.block a = false) :
    hostStep s = perform { s with script := rest } a := by
  simp [hostStep, hheld, hscript, hholds]

/-- A write to offset 4N issues (R26, R51). -/
theorem portWrite_cmd {p : Params} (b : Block p) {off : Offset p} (c : Limb p) (h : off.toNat = 4 * p.n) :
    portWrite b off c = issue b c := by
  simp [portWrite, (portReg_eq_cmd_iff p off.toNat).2 h]

/-- Settles O4, by the unit's move and the command that PEND decodes to. -/
theorem stepCompletesThePendingCommand : Obligations.StepCompletesThePendingCommand := by
  intro s i hb hi
  refine ⟨fun turns h => ?_, fun h => ?_⟩
  · exact (step_eq_unitStep hb (.inl h)).trans (unitStep_of_legal hi)
  · rw [step_eq_unitStep hb (.inr ⟨h, rfl⟩), withSched_self h, unitStep_of_legal hi]

/-- Settles O5: the turn is taken off `sched` and passes. -/
theorem unitHasNoStepWhileIdle : Obligations.UnitHasNoStepWhileIdle := by
  intro s turns hb h
  exact (step_of_turn h).trans (takeTurn_unit_of_idle hb)

/-- Settles O6, by the unit's move and the completion of R232. -/
theorem illegalCommandCompletes : Obligations.IllegalCommandCompletes := by
  intro s turns why hb h hwhy
  exact (step_eq_unitStep hb h).trans (unitStep_of_illegal hwhy)

/-- Settles O7: the host moves, its write does not hold while BUSY is 0, and at offset 4N it issues. -/
theorem commandWriteIssues : Obligations.CommandWriteIssues := by
  intro s turns rest off c hb hheld hscript hoff h
  have hperform : hostStep { s with sched := turns } =
      perform { s with script := rest, sched := turns } (.write off c) :=
    hostStep_performs_next hheld hscript (holds_of_idle hb _)
  rw [step_eq_hostStep hb h, hperform, perform, accessBlock_write, portWrite_cmd _ _ hoff]
  rfl

/-- Settles O11, by the reset's turn. -/
theorem resetTurnResetsTheBlock : Obligations.ResetTurnResetsTheBlock := by
  intro s turns h
  rw [step_of_turn h]
  rfl

/-! ### The invariant (R29, R57, R233) -/

/-- A port write keeps RES, REM and the three condition bits: R55 lets it change an operand or issue, no more. -/
theorem portWrite_keeps_results {p : Params} (b : Block p) (off : Offset p) (v : Limb p) :
    (portWrite b off v).res = b.res ∧ (portWrite b off v).rem = b.rem ∧
    (portWrite b off v).status.ovf = b.status.ovf ∧ (portWrite b off v).status.dbz = b.status.dbz ∧
    (portWrite b off v).status.ill = b.status.ill := by
  rcases portWrite_cases b off v with ⟨i, -, h⟩ | ⟨i, -, h⟩ | ⟨-, h⟩ | h
  all_goals rw [h]; exact ⟨rfl, rfl, rfl, rfl, rfl⟩

/-- A port write while BUSY is 0 sets BUSY by an issue alone, at offset 4N (R26, R55). -/
theorem portWrite_busy {p : Params} {b : Block p} {off : Offset p} {v : Limb p} (hidle : b.status.busy = false)
    (hbusy : (portWrite b off v).status.busy = true) : off.toNat = 4 * p.n ∧ portWrite b off v = issue b v := by
  rcases portWrite_cases b off v with ⟨i, -, h⟩ | ⟨i, -, h⟩ | ⟨hcmd, h⟩ | h
  case inr.inr.inl => exact ⟨(portReg_eq_cmd_iff p _).1 hcmd, h⟩
  all_goals
    rw [h] at hbusy
    exact absurd (hidle.symm.trans hbusy) Bool.false_ne_true

/-- An access that does not hold keeps the latches equal to the operands: it reads, or it writes while BUSY is 0, and
then BUSY is 1 after it only if it latched them (R26). -/
theorem accessBlock_keeps_latches {p : Params} {b : Block p} {a : Access p} (hholds : holds b a = false)
    (hb : b.LatchesMatch) : (accessBlock b a).LatchesMatch := by
  cases a with
  | read off => exact hb
  | write off v =>
    have hidle : b.status.busy = false := by simpa [holds] using hholds
    intro hbusy
    rw [accessBlock_write] at hbusy ⊢
    rw [(portWrite_busy hidle hbusy).2]
    exact ⟨rfl, rfl⟩

/-- No access records or clears a condition. -/
theorem accessBlock_keeps_conditions {p : Params} {b : Block p} (a : Access p) (hb : b.status.AtMostOneCondition) :
    (accessBlock b a).status.AtMostOneCondition := by
  cases a with
  | read off => exact hb
  | write off v =>
    obtain ⟨-, -, hovf, hdbz, hill⟩ := portWrite_keeps_results b off v
    rw [Status.AtMostOneCondition, accessBlock_write, hovf, hdbz, hill]
    exact hb

/-- Performing an access that does not hold, with none held beside it, gives a consistent state. -/
theorem perform_consistent {s : State} {a : Access s.params} (hheld : s.held = none)
    (hholds : holds s.block a = false) (hlatches : s.block.LatchesMatch)
    (hconditions : s.block.status.AtMostOneCondition) : (perform s a).Consistent where
  latches := accessBlock_keeps_latches hholds hlatches
  conditions := accessBlock_keeps_conditions a hconditions
  heldNotStatusRead b hb := by
    rw [perform_held, hheld] at hb
    cases hb

/-- The host's turn keeps consistency: what begins to hold is no read of STATUS, and what is performed did not hold. -/
theorem hostStep_keeps_consistent {s : State} (hs : s.Consistent) : (hostStep s).Consistent := by
  obtain ⟨hlatches, hconditions, hstatus⟩ := hs
  rcases hostStep_cases s with h | ⟨a, rest, -, -, hholds, h⟩ | ⟨a, -, hholds, h⟩ | ⟨a, rest, hnone, -, hholds, h⟩
  · rw [h]
    exact ⟨hlatches, hconditions, hstatus⟩
  · rw [h]
    refine ⟨hlatches, hconditions, ?_⟩
    rintro _ ⟨⟩
    obtain ⟨-, hread⟩ : s.block.status.busy = true ∧ isStatusRead a = false := by simpa [holds] using hholds
    exact hread
  · rw [h]
    exact perform_consistent rfl hholds hlatches hconditions
  · rw [h]
    exact perform_consistent hnone hholds hlatches hconditions

/-- A completion keeps consistency: it clears BUSY, and records at most one condition. -/
theorem unitStep_keeps_consistent {s t : State} (hs : s.Consistent) (h : unitStep s = .next t) : t.Consistent := by
  obtain ⟨res, rem, ovf, dbz, ill, hnext, h₁, h₂, h₃⟩ := unitStep_next s
  rw [hnext] at h
  cases h
  refine ⟨fun hbusy => absurd hbusy Bool.false_ne_true, ?_, hs.heldNotStatusRead⟩
  simp [Status.AtMostOneCondition, ← Bool.and_eq_true, h₁, h₂, h₃]

/-- A state whose registers have their reset values and whose host holds no access is consistent. -/
theorem consistent_of_reset {s : State} (hblock : s.block = Block.reset s.params) (hheld : s.held = none) :
    s.Consistent where
  latches _ := by rw [hblock]; exact ⟨rfl, rfl⟩
  conditions := by simp [hblock, Status.AtMostOneCondition]
  heldNotStatusRead a ha := by
    rw [hheld] at ha
    cases ha

/-- Settles O50, by `consistent_of_reset`. -/
theorem resetIsConsistent : Obligations.ResetIsConsistent :=
  fun _ => consistent_of_reset rfl rfl

/-- Settles O51, by the turns that a step can take: the host's, a completion, a turn that passes, or a reset. -/
theorem stepKeepsConsistency : Obligations.StepKeepsConsistency := by
  intro s t hs hstep
  have hs' : State.Consistent { s with sched := s.sched.tail } := ⟨hs.latches, hs.conditions, hs.heldNotStatusRead⟩
  obtain ⟨s', rfl, h | ⟨-, h⟩ | ⟨-, h⟩ | ⟨-, h⟩⟩ := step_cases s
  all_goals rw [h] at hstep
  · cases hstep
    exact hostStep_keeps_consistent hs'
  · exact unitStep_keeps_consistent hs' hstep
  · cases hstep
    exact hs'
  · cases hstep
    exact consistent_of_reset rfl rfl

/-! ### What one step does to the registers -/

/-- The block that a completion gives is determined by its outcome. -/
theorem block_eq_of_next_eq {s : State} {b b' : Block s.params} {o : StepOutcome} (h : o = .next (s.withBlock b))
    (h' : o = .next (s.withBlock b')) : b = b' := by
  simpa [State.withBlock] using h.symm.trans h'

/-- The unit's step reads and writes the block alone. -/
theorem unitStep_of_block {s : State} (held : Option (Access s.params)) (script : List (Access s.params))
    (reads : List (Limb s.params)) (sched : List Turn) {b : Block s.params}
    (h : unitStep s = .next (s.withBlock b)) :
    unitStep { params := s.params, block := s.block, held := held, script := script, reads := reads, sched := sched } =
      .next { params := s.params, block := b, held := held, script := script, reads := reads, sched := sched } := by
  rcases hdecode : decode s.block.pend with why | i
  · rw [block_eq_of_next_eq h (unitStep_of_illegal hdecode)]
    exact unitStep_of_illegal hdecode
  · rw [unitStep_of_legal hdecode] at h
    rw [← exec_of_block i s held script reads sched h]
    exact unitStep_of_legal hdecode

/-- What a step of `s` can make of the registers (R26, R27, R55, R57, R260). -/
inductive BlockStep (s : State) : Block s.params → Prop where
  /-- The turn changes no register. -/
  | kept : BlockStep s s.block
  /-- The host performs a write that it held, or its next one, while BUSY is 0. -/
  | write (off : Offset s.params) (v : Limb s.params) (idle : s.block.status.busy = false)
      (source : s.held = some (.write off v) ∨ (s.held = none ∧ s.script.head? = some (.write off v))) :
      BlockStep s (portWrite s.block off v)
  /-- The unit completes the command in flight. -/
  | completion (b : Block s.params) (busy : s.block.status.busy = true) (next : unitStep s = .next (s.withBlock b)) :
      BlockStep s b
  /-- The reset input is asserted. -/
  | reset (next : s.ResetNext) : BlockStep s (Block.reset s.params)

/-- The step function does to the registers what `BlockStep` says, and keeps the parameters. -/
theorem step_blockStep {s t : State} (h : step s = .next t) :
    ∃ (b : Block s.params) (held : Option (Access s.params)) (script : List (Access s.params))
      (reads : List (Limb s.params)) (sched : List Turn), BlockStep s b ∧
      t = { params := s.params, block := b, held := held, script := script, reads := reads, sched := sched } := by
  obtain ⟨s', rfl, hstep | ⟨hbusy, hstep⟩ | ⟨-, hstep⟩ | ⟨hreset, hstep⟩⟩ := step_cases s
  · obtain ⟨b, ⟨held, script, reads, hhost⟩, hb⟩ := hostStep_block { s with sched := s.sched.tail }
    rw [hstep, hhost] at h
    cases h
    refine ⟨b, held, script, reads, _, ?_, rfl⟩
    rcases hb with rfl | ⟨hidle, off, v, hsource, rfl⟩
    · exact .kept
    · exact .write (s := s) off v hidle hsource
  · obtain ⟨res, rem, ovf, dbz, ill, hnext, -⟩ := unitStep_next s
    rw [hstep, unitStep_of_block s.held s.script s.reads s.sched.tail hnext] at h
    cases h
    exact ⟨_, _, _, _, _, .completion _ hbusy hnext, rfl⟩
  · rw [hstep] at h
    cases h
    exact ⟨_, _, _, _, _, .kept, rfl⟩
  · rw [hstep] at h
    cases h
    exact ⟨_, _, _, _, _, .reset hreset, rfl⟩

/-- A completion writes RES, REM and STATUS alone, and clears BUSY (R27). -/
theorem unitStep_block {s : State} {b : Block s.params} (h : unitStep s = .next (s.withBlock b)) :
    s.block.SameButResults b ∧ b.status.busy = false := by
  obtain ⟨res, rem, ovf, dbz, ill, hnext, -⟩ := unitStep_next s
  rw [block_eq_of_next_eq h hnext]
  exact ⟨⟨rfl, rfl, rfl, rfl, rfl⟩, rfl⟩

/-- A division's completion that changes REM had a non-zero divisor (R231). -/
theorem divisor_ne_zero_of_rem_changed {s : State} {d : Nat} {b : Block s.params}
    (h : divideBy s d = .next (s.withBlock b)) (hrem : b.rem ≠ s.block.rem) : d ≠ 0 := by
  rcases divideBy_cases s d with ⟨-, hdbz⟩ | ⟨hd, -⟩
  · rw [block_eq_of_next_eq h hdbz, complete_rem] at hrem
    exact absurd rfl hrem
  · exact hd

/-- A completion that changes REM is a division's by a non-zero divisor (R23). -/
theorem division_of_rem_changed {s : State} {b : Block s.params} (h : unitStep s = .next (s.withBlock b))
    (hrem : b.rem ≠ s.block.rem) :
    (decode s.block.pend = .ok .divrem ∧ s.block.lopb.toNat ≠ 0) ∨
    (decode s.block.pend = .ok .divu ∧ limbNat s.block.lopb 0 ≠ 0) := by
  rcases unitStep_cases s with ⟨i, hi, hexec⟩ | ⟨why, -, hillegal⟩
  · rw [hexec] at h
    by_cases hdivrem : i = .divrem
    · subst hdivrem
      exact .inl ⟨hi, divisor_ne_zero_of_rem_changed h hrem⟩
    by_cases hdivu : i = .divu
    · subst hdivu
      exact .inr ⟨hi, divisor_ne_zero_of_rem_changed h hrem⟩
    obtain ⟨res, ovf, hresult⟩ := exec_keeps_rem i s hdivrem hdivu
    rw [block_eq_of_next_eq h hresult, complete_rem] at hrem
    exact absurd rfl hrem
  · rw [block_eq_of_next_eq h hillegal, complete_rem] at hrem
    exact absurd rfl hrem

/-- Settles O55: no port write changes REM, and of the completions `division_of_rem_changed`. -/
theorem onlyDivisionWritesRem : Obligations.OnlyDivisionWritesRem := by
  intro s t hstep hrem
  obtain ⟨b, held, script, reads, sched, hb, rfl⟩ := step_blockStep hstep
  have hne : b.rem ≠ s.block.rem := fun h => hrem (congrArg BitVec.toNat h)
  cases hb with
  | kept => exact absurd rfl hne
  | write off v =>
    obtain ⟨-, hkept, -⟩ := portWrite_keeps_results s.block off v
    exact absurd hkept hne
  | completion b busy next =>
    obtain ⟨-, hclears⟩ := unitStep_block next
    exact .inr ⟨busy, hclears, division_of_rem_changed next hne⟩
  | reset next => exact .inl next

/-- Settles O56: what is left beside completions and resets are port writes, by `portWrite_keeps_results`. -/
theorem resultsChangeOnlyAtCompletion : Obligations.ResultsChangeOnlyAtCompletion := by
  intro s t hstep hreset hcompletes
  obtain ⟨b, held, script, reads, sched, hb, rfl⟩ := step_blockStep hstep
  cases hb with
  | kept => exact ⟨rfl, rfl, rfl, rfl, rfl⟩
  | write off v =>
    obtain ⟨hres, hrem, hflags⟩ := portWrite_keeps_results s.block off v
    exact ⟨congrArg BitVec.toNat hres, congrArg BitVec.toNat hrem, hflags⟩
  | completion b busy next =>
    obtain ⟨-, hclears⟩ := unitStep_block next
    simp [busy, hclears] at hcompletes
  | reset next => exact absurd next hreset

/-- Settles O57: while BUSY is 1 there is no port write, and a completion writes RES, REM and STATUS alone. -/
theorem nothingChangesACommandInFlight : Obligations.NothingChangesACommandInFlight := by
  intro s t hstep hreset hbusy
  obtain ⟨b, held, script, reads, sched, hb, rfl⟩ := step_blockStep hstep
  cases hb with
  | kept => exact ⟨rfl, rfl, rfl, rfl, rfl⟩
  | write off v idle => exact absurd (idle.symm.trans hbusy) Bool.false_ne_true
  | completion b busy next =>
    obtain ⟨⟨hopa, hopb, hpend, hlopa, hlopb⟩, -⟩ := unitStep_block next
    exact ⟨congrArg _ hpend, congrArg _ hlopa, congrArg _ hlopb, congrArg _ hopa, congrArg _ hopb⟩
  | reset next => exact absurd next hreset

/-- Settles O58: only a port write can set BUSY, and only by an issue, by `portWrite_busy`. -/
theorem onlyACommandWriteIssues : Obligations.OnlyACommandWriteIssues := by
  intro s t hstep hidle hbusy
  obtain ⟨b, held, script, reads, sched, hb, rfl⟩ := step_blockStep hstep
  cases hb with
  | kept => exact absurd (hidle.symm.trans hbusy) Bool.false_ne_true
  | write off c idle source =>
    obtain ⟨hoff, hissue⟩ := portWrite_busy idle hbusy
    refine ⟨off, c, hoff, source, ?_⟩
    rw [hissue]
    exact ⟨rfl, rfl, rfl⟩
  | completion b busy => exact absurd (hidle.symm.trans busy) Bool.false_ne_true
  | reset => exact absurd hbusy Bool.false_ne_true

/-! ### The latency (R272) -/

/-- However many host turns come before the unit's, the run completes with the registers that completing at once gives:
a host turn while BUSY is 1 changes no register (R57), and the unit reads nothing else. -/
theorem run_hostTurns_then_unit {m : Nat} {turns : List Turn} {s : State} {b : Block s.params}
    (hbusy : s.block.status.busy = true) (hsched : s.sched = List.replicate m .host ++ .unit :: turns)
    (hunit : unitStep s = .next (s.withBlock b)) :
    ∃ (held : Option (Access s.params)) (script : List (Access s.params)) (reads : List (Limb s.params)),
      Sys2Proof.core.run (m + 1) s =
        .next { params := s.params, block := b, held := held, script := script, reads := reads, sched := turns } := by
  induction m generalizing s with
  | zero =>
    have hstep : step s = _ := (step_eq_unitStep hbusy (.inl hsched)).trans
      (unitStep_of_block s.held s.script s.reads turns hunit)
    exact ⟨_, _, _, run_succ_of_step 0 hstep⟩
  | succ m ih =>
    obtain ⟨held, script, reads, hhost⟩ :=
      hostStep_of_busy (s := { s with sched := List.replicate m .host ++ .unit :: turns }) hbusy
    have hstep : step s = .next (hostStep { s with sched := List.replicate m .host ++ .unit :: turns }) :=
      step_of_turn hsched
    rw [hhost] at hstep
    rw [run_succ_of_step (m + 1) hstep]
    exact ih (s := ⟨s.params, s.block, held, script, reads, _⟩) hbusy rfl
      (unitStep_of_block (s := s) held script reads _ hunit)

/-- Settles O54, by induction on the number of host turns. -/
theorem latencyDoesNotChangeTheResult : Obligations.LatencyDoesNotChangeTheResult := by
  intro s m turns hbusy hsched
  obtain ⟨res, rem, ovf, dbz, ill, hunit, -⟩ := unitStep_next s
  obtain ⟨held, script, reads, hrun⟩ := run_hostTurns_then_unit hbusy hsched hunit
  exact ⟨_, held, script, reads, hunit, hrun⟩

end Sys2Proof.Proofs
end

section
/-! SUPPORT. Proofs of the statements of 20_memory.md: what a read of each offset returns (R51, R54), what a write to
each offset does (R55), the N limb writes of `lda` and `ldb` (R88), the byte layout (R53), and which accesses the host's
turn holds or performs (R57). -/

namespace Sys2Proof.Proofs

open Sys2Proof Sys2Proof.Machine Sys2Proof.Laws

/-! ### Reads by the rows of the register map (R51, R54) -/

section portRead
variable {p : Params} (b : Block p) {off : Offset p} {i : Nat}

theorem portRead_opa (hi : i < p.n) (h : off.toNat = i) : portRead b off = limb b.opa i := by
  simp only [portRead, h, portReg_opa p hi]

theorem portRead_opb (hi : i < p.n) (h : off.toNat = p.n + i) : portRead b off = limb b.opb i := by
  simp only [portRead, h, portReg_opb p hi]

theorem portRead_res (hi : i < p.n) (h : off.toNat = 2 * p.n + i) : portRead b off = limb b.res i := by
  simp only [portRead, h, portReg_res p hi]

theorem portRead_rem (hi : i < p.n) (h : off.toNat = 3 * p.n + i) : portRead b off = limb b.rem i := by
  simp only [portRead, h, portReg_rem p hi]

theorem portRead_cmd (h : off.toNat = 4 * p.n) : portRead b off = 0 := by
  simp only [portRead, h, portReg_cmd p]

theorem portRead_status (h : off.toNat = 4 * p.n + 1) : portRead b off = statusWord p b.status := by
  simp only [portRead, h, portReg_status p]

theorem portRead_reserved (h : 4 * p.n + 2 ≤ off.toNat) : portRead b off = 0 := by
  simp only [portRead, portReg_reserved p h]

end portRead

/-- A read depends on RES, REM, STATUS and the one operand limb at its offset. -/
theorem portRead_congr {p : Params} {b b' : Block p} {off : Offset p}
    (hopa : ∀ i, i < p.n → off.toNat = i → limb b'.opa i = limb b.opa i)
    (hopb : ∀ i, i < p.n → off.toNat = p.n + i → limb b'.opb i = limb b.opb i)
    (hres : b'.res = b.res) (hrem : b'.rem = b.rem) (hstatus : b'.status = b.status) :
    portRead b' off = portRead b off := by
  rcases portReg_cases p off.toNat with ⟨i, hi, hoff, -⟩ | ⟨i, hi, hoff, -⟩ | ⟨i, hi, hoff, -⟩ | ⟨i, hi, hoff, -⟩ |
    ⟨hoff, -⟩ | ⟨hoff, -⟩ | ⟨hoff, -⟩
  · rw [portRead_opa b' hi hoff, portRead_opa b hi hoff, hopa i hi hoff]
  · rw [portRead_opb b' hi hoff, portRead_opb b hi hoff, hopb i hi hoff]
  · rw [portRead_res b' hi hoff, portRead_res b hi hoff, hres]
  · rw [portRead_rem b' hi hoff, portRead_rem b hi hoff, hrem]
  · rw [portRead_cmd b' hoff, portRead_cmd b hoff]
  · rw [portRead_status b' hoff, portRead_status b hoff, hstatus]
  · rw [portRead_reserved b' hoff, portRead_reserved b hoff]

/-- Settles O45, row by row. -/
theorem portReadsTheRegisterMap : Obligations.PortReadsTheRegisterMap :=
  fun _ b _ => ⟨fun _ hi => ⟨portRead_opa b hi, portRead_opb b hi, portRead_res b hi, portRead_rem b hi⟩,
    portRead_cmd b, portRead_status b, portRead_reserved b⟩

/-! ### Writes by the rows of the register map (R51, R55) -/

section portWrite
variable {p : Params} (b : Block p) {off : Offset p} (v : Limb p) {i : Nat}

theorem portWrite_opa (hi : i < p.n) (h : off.toNat = i) :
    portWrite b off v = { b with opa := setLimb b.opa i v } := by
  simp only [portWrite, h, portReg_opa p hi]

theorem portWrite_opb (hi : i < p.n) (h : off.toNat = p.n + i) :
    portWrite b off v = { b with opb := setLimb b.opb i v } := by
  simp only [portWrite, h, portReg_opb p hi]

/-- From 2N on, every offset but CMD's ignores a write. -/
theorem portWrite_readOnly (hoperand : 2 * p.n ≤ off.toNat) (hcmd : off.toNat ≠ 4 * p.n) : portWrite b off v = b := by
  rcases portReg_cases p off.toNat with ⟨i, hi, hoff, -⟩ | ⟨i, hi, hoff, -⟩ | ⟨i, -, -, hreg⟩ | ⟨i, -, -, hreg⟩ |
    ⟨hoff, -⟩ | ⟨-, hreg⟩ | ⟨-, hreg⟩
  case inr.inr.inr.inr.inl => exact absurd hoff hcmd
  case inl | inr.inl => omega
  all_goals simp only [portWrite, hreg]

end portWrite

/-- Settles O48, by `portWrite_readOnly`: neither range holds the offset of CMD. -/
theorem readOnlyWritesAreIgnored : Obligations.ReadOnlyWritesAreIgnored := by
  intro p b off v
  exact ⟨fun ⟨hlow, hhigh⟩ => portWrite_readOnly b v hlow (by omega),
    fun h => portWrite_readOnly b v (by omega) (by omega)⟩

/-- An offset below 2N is one operand limb's. -/
theorem operandOffset_cases {n off : Nat} (h : off < 2 * n) :
    (∃ i, i < n ∧ off = i) ∨ ∃ i, i < n ∧ off = n + i := by
  rcases Nat.lt_or_ge off n with hlow | hhigh
  · exact .inl ⟨off, hlow, rfl⟩
  · exact .inr ⟨off - n, by omega, by omega⟩

/-- Settles O47: in OPA and in OPB alike, `limb_setLimb_self` gives the offset written and `limb_setLimb_other` every
other limb of that operand, and `portRead_congr` says that no other offset reads it. -/
theorem operandWriteReplacesOneLimb : Obligations.OperandWriteReplacesOneLimb := by
  intro p b off v h
  have hne : ∀ other : Offset p, other ≠ off → other.toNat ≠ off.toNat :=
    fun _ hother heq => hother (BitVec.eq_of_toNat_eq heq)
  rcases operandOffset_cases h with ⟨i, hi, hoff⟩ | ⟨i, hi, hoff⟩
  · rw [portWrite_opa b v hi hoff]
    refine ⟨?_, fun other hother => portRead_congr (fun j hj hat => ?_) (fun _ _ _ => rfl) rfl rfl rfl, rfl⟩
    · rw [portRead_opa _ hi hoff, limb_setLimb_self _ hi]
    · have := hne other hother
      exact limb_setLimb_other _ hj (by omega) v
  · rw [portWrite_opb b v hi hoff]
    refine ⟨?_, fun other hother => portRead_congr (fun _ _ _ => rfl) (fun j hj hat => ?_) rfl rfl rfl, rfl⟩
    · rw [portRead_opb _ hi hoff, limb_setLimb_self _ hi]
    · have := hne other hother
      exact limb_setLimb_other _ hj (by omega) v

/-! ### Writing every limb of an operand (R55, R88) -/

/-- The register `x` with its limbs 0 to `k - 1` replaced by those of `v`, the lowest first. -/
def setLimbs {p : Params} (x v : Wide p) (k : Nat) : Wide p :=
  (List.range k).foldl (fun x i => setLimb x i (limb v i)) x

theorem setLimbs_succ {p : Params} (x v : Wide p) (k : Nat) :
    setLimbs x v (k + 1) = setLimb (setLimbs x v k) k (limb v k) := by
  simp [setLimbs, List.range_succ]

/-- The limbs replaced are those of `v`. -/
theorem limb_setLimbs {p : Params} (x v : Wide p) {k j : Nat} (hj : j < p.n) (hjk : j < k) :
    limb (setLimbs x v k) j = limb v j := by
  induction k with
  | zero => exact absurd hjk (Nat.not_lt_zero j)
  | succ k ih =>
    rw [setLimbs_succ]
    rcases Nat.eq_or_lt_of_le (Nat.le_of_lt_succ hjk) with rfl | hlt
    · exact limb_setLimb_self _ hj _
    · rw [limb_setLimb_other _ hj hlt.ne, ih hlt]

/-- Replacing all N limbs gives `v`. -/
theorem setLimbs_all {p : Params} (x v : Wide p) : setLimbs x v p.n = v :=
  eq_of_limbs_eq fun _ hi => limb_setLimbs x v hi hi

/-- Where the port's write at `off i` sets limb `i` of one register, `put x` being the block with `x` in it, the writes
of the limbs of `v` below `k` set those limbs of it. -/
theorem foldl_portWrite {p : Params} {put : Wide p → Block p} {off : Nat → Offset p}
    (hput : ∀ x i w, i < p.n → portWrite (put x) (off i) w = put (setLimb x i w)) (x v : Wide p) {k : Nat}
    (hk : k ≤ p.n) :
    (List.range k).foldl (fun b i => portWrite b (off i) (limb v i)) (put x) = put (setLimbs x v k) := by
  induction k with
  | zero => rfl
  | succ k ih =>
    rw [List.range_succ, List.foldl_append, ih (Nat.le_of_succ_le hk), setLimbs_succ]
    exact hput _ _ _ hk

/-- Settles O49, by `foldl_portWrite` for each operand and `setLimbs_all`. -/
theorem writingEveryLimbSetsTheOperand : Obligations.WritingEveryLimbSetsTheOperand := by
  intro p b v
  have hopa := foldl_portWrite (put := fun x => { b with opa := x }) (off := fun i => offset p i)
    (fun _ _ w hi => portWrite_opa _ w hi (offset_toNat p (by omega))) b.opa v (Nat.le_refl _)
  have hopb := foldl_portWrite (put := fun x => { b with opb := x }) (off := fun i => offset p (p.n + i))
    (fun _ _ w hi => portWrite_opb _ w hi (offset_toNat p (by omega))) b.opb v (Nat.le_refl _)
  rw [setLimbs_all] at hopa hopb
  exact ⟨hopa, hopb⟩

/-! ### The byte layout (R53) -/

/-- The bytes below limb `i` have the bits below limb `i`: a limb is a whole number of bytes. -/
theorem eight_mul_firstByte (p : Params) (i : Nat) : 8 * (i * p.lb / 8) = p.lb * i := by
  rw [Nat.mul_div_cancel' (Dvd.dvd.mul_left (eight_dvd_lb p) i), Nat.mul_comm]

/-- Byte `j` of limb `i` is that byte of the register. -/
theorem limb_byte {p : Params} (v : Wide p) (i : Nat) {j : Nat} (hj : j < p.lb / 8) :
    (limb v i).extractLsb' (8 * j) 8 = littleEndianByte v (i * p.lb / 8 + j) := by
  apply BitVec.eq_of_getLsbD_eq
  intro k hk
  have hbit : 8 * j + k < p.lb := by omega
  simp only [littleEndianByte, BitVec.getLsbD_extractLsb', limb_getLsbD, hbit, decide_true, Bool.true_and,
    Nat.mul_add, eight_mul_firstByte, Nat.add_assoc]

/-- Settles O59, by `limb_byte`; the big-endian bytes are the reversal as defined. -/
theorem byteLayout : Obligations.ByteLayout :=
  fun _ v => ⟨fun i _ _ hj => (limb_byte v i hj).symm, fun _ _ => rfl⟩

/-! ### The host's turn: hold or perform (R57) -/

section hostStep
variable {s : State} {a : Access s.params} {rest : List (Access s.params)}

theorem hostStep_begins_hold (hheld : s.held = none) (hscript : s.script = a :: rest)
    (hholds : holds s.block a = true) : hostStep s = { s with held := some a, script := rest } := by
  simp [hostStep, hheld, hscript, hholds]

theorem hostStep_keeps_hold (hheld : s.held = some a) (hholds : holds s.block a = true) : hostStep s = s := by
  simp [hostStep, hheld, hholds]

theorem hostStep_performs_held (hheld : s.held = some a) (hholds : holds s.block a = false) :
    hostStep s = perform { s with held := none } a := by
  simp [hostStep, hheld, hholds]

theorem hostStep_of_no_access (hheld : s.held = none) (hscript : s.script = []) : hostStep s = s := by
  simp [hostStep, hheld, hscript]

end hostStep

/-- At its turn the host moves, whatever BUSY is. -/
theorem step_of_hostTurn {s : State} {turns : List Turn} (h : s.sched = .host :: turns) :
    step s = .next (hostStep { s with sched := turns }) := step_of_turn h

/-- A read of STATUS never holds. -/
theorem holds_statusRead {p : Params} (b : Block p) {off : Offset p} (h : off.toNat = 4 * p.n + 1) :
    holds b (.read off) = false := by
  simp [holds, (isStatusRead_read off).2 h]

/-- While BUSY is 1, every access that is no read of STATUS holds. -/
theorem holds_of_not_statusRead {p : Params} {b : Block p} {a : Access p} (hbusy : b.status.busy = true)
    (ha : ∀ off, a = .read off → off.toNat ≠ 4 * p.n + 1) : holds b a = true := by
  simp [holds_of_busy hbusy, (isStatusRead_eq_false_iff a).2 ha]

/-- Settles O8: the access holds, by `holds_of_not_statusRead`, so the host's turn begins the hold or keeps it. -/
theorem accessHoldsWhileBusy : Obligations.AccessHoldsWhileBusy := by
  intro s turns hbusy hsched
  rw [step_of_hostTurn hsched]
  exact ⟨fun _ _ hheld hscript ha =>
      congrArg _ (hostStep_begins_hold hheld hscript (holds_of_not_statusRead hbusy ha)),
    fun _ hheld ha => congrArg _ (hostStep_keeps_hold hheld (holds_of_not_statusRead hbusy ha))⟩

/-- Settles O9: the read does not hold, by `holds_statusRead`, and the word it returns is `portRead_status`'s. -/
theorem statusReadNeverHolds : Obligations.StatusReadNeverHolds := by
  intro s turns rest off hheld hscript hoff hsched
  rw [step_of_hostTurn hsched, ← portRead_status s.block hoff]
  exact congrArg _
    (hostStep_performs_next (s := { s with sched := turns }) hheld hscript (holds_statusRead s.block hoff))

/-- Settles O10: with BUSY = 0 no access holds, so the host performs the held one, or its next, if it has one. -/
theorem idleHostTurnPerformsTheAccess : Obligations.IdleHostTurnPerformsTheAccess := by
  intro s turns hidle hsched
  rw [step_eq_hostStep hidle hsched]
  have hheldNow : ∀ a, s.held = some a →
      hostStep { s with sched := turns } = perform { s with held := none, sched := turns } a :=
    fun a hheld => hostStep_performs_held hheld (holds_of_idle hidle a)
  have hnext : ∀ a rest, s.held = none → s.script = a :: rest →
      hostStep { s with sched := turns } = perform { s with script := rest, sched := turns } a :=
    fun a _ hheld hscript => hostStep_performs_next hheld hscript (holds_of_idle hidle a)
  exact ⟨fun _ hheld => congrArg _ (hheldNow _ hheld), fun _ _ hheld => congrArg _ (hheldNow _ hheld),
    fun _ _ hheld hscript => congrArg _ (hnext _ _ hheld hscript),
    fun _ _ _ hheld hscript => congrArg _ (hnext _ _ hheld hscript),
    fun hheld hscript => congrArg _ (hostStep_of_no_access hheld hscript)⟩

end Sys2Proof.Proofs
end

section
/-! SUPPORT. Proofs of the statements of 30_encoding.md: the decoder said by the number of the command word (R80, R81),
one equation for each of its ranges, and from them the legal words (R82) and the illegal ones (R83). -/

namespace Sys2Proof.Proofs

open Sys2Proof Sys2Proof.Laws

/-! ### The decoder by the number of the word (R80, R81) -/

section decode
variable {lb : Nat} {c : BitVec lb}

theorem ofWord_zx_eq_zero_iff (hlb : 8 ≤ lb) : (Cmd8.ofWord c).zx = 0 ↔ c.toNat < 0x100 := by
  rw [← BitVec.toNat_inj, ofWord_zx hlb, BitVec.ofNat_eq_ofNat, BitVec.toNat_ofNat, Nat.zero_mod]
  omega

/-- Under a zero `zx`, the two fields `z` and `op` are the whole number. -/
theorem ofWord_z_eq_zero_iff (hc : c.toNat < 0x100) : (Cmd8.ofWord c).z = 0 ↔ c.toNat < 0x20 := by
  rw [← BitVec.toNat_inj, ofWord_z, BitVec.ofNat_eq_ofNat, BitVec.toNat_ofNat, Nat.zero_mod]
  omega

theorem decode_of_0x100_le (hlb : 8 ≤ lb) (hc : 0x100 ≤ c.toNat) : decode c = .error .zxNotZero :=
  if_pos (mt (ofWord_zx_eq_zero_iff hlb).1 hc.not_gt)

theorem decode_of_0x20_le (hlb : 8 ≤ lb) (hc : 0x20 ≤ c.toNat) (hc' : c.toNat < 0x100) :
    decode c = .error .zNotZero := by
  have hzx := (ofWord_zx_eq_zero_iff hlb).2 hc'
  have hz : (Cmd8.ofWord c).z ≠ 0 := mt (ofWord_z_eq_zero_iff hc').1 hc.not_gt
  exact (if_neg (not_not.2 hzx)).trans (if_pos hz)

/-- Below 0x20 the number is the operation select, and the table of R82 decides. -/
theorem decode_of_lt_0x20 (hlb : 8 ≤ lb) (hc : c.toNat < 0x20) :
    decode c = (decodeOp c.toNat).elim (.error .opNotListed) .ok := by
  have hzx := (ofWord_zx_eq_zero_iff hlb).2 (by omega : c.toNat < 0x100)
  have hz := (ofWord_z_eq_zero_iff (by omega)).2 hc
  have hop : (Cmd8.ofWord c).op.toNat = c.toNat := (ofWord_op c).trans (Nat.mod_eq_of_lt hc)
  simp only [decode, hzx, hz, hop]
  cases decodeOp c.toNat <;> rfl

/-- A word decodes to a command exactly when its number is the command's value of R82. -/
theorem decode_eq_ok_iff (hlb : 8 ≤ lb) {i : Instr} : decode c = .ok i ↔ c.toNat = opValue i := by
  refine ⟨toNat_of_decode hlb, fun h => ?_⟩
  rw [decode_of_lt_0x20 hlb (h ▸ opValue_lt i), h, decodeOp_opValue, Option.elim_some]

end decode

/-! ### The legal words (R82) -/

/-- The word of a command has the command's value as its number: every limb width has room for it. -/
theorem encode_toNat (lb : LimbBits) (i : Instr) : (encode lb.bits i).toNat = opValue i :=
  (CommandWord.of_value (opValue_lt i) (decodeOp_opValue i)).1 lb

/-- Settles O2: both sides say that the number of the word is the command's value. -/
theorem decodeIsOkExactlyOnEncodings : Obligations.DecodeIsOkExactlyOnEncodings := by
  intro lb c i
  rw [decode_eq_ok_iff (eight_le_bits lb), ← encode_toNat lb i, BitVec.toNat_inj]

/-! ### The illegal words (R83) -/

/-- The numbers that the table of R82 leaves out. -/
theorem decodeOp_eq_none_iff (n : Nat) : decodeOp n = none ↔ n = 0x00 ∨ n = 0x07 ∨ 0x16 ≤ n := by
  simp only [decodeOp, opcodeTable, Option.map_eq_none_iff, List.find?_eq_none, List.cons_append, List.nil_append,
    List.forall_mem_cons, List.not_mem_nil, false_imp_iff, implies_true, and_true, beq_iff_eq]
  omega

/-- Settles O3, by the range of the word's number; below 0x20 by `decodeOp_eq_none_iff`. -/
theorem illegalValuesAreThoseOfR83 : Obligations.IllegalValuesAreThoseOfR83 := by
  intro lb c
  have hlb := eight_le_bits lb
  rcases Nat.lt_or_ge c.toNat 0x20 with hc | hc
  · have hnone := decodeOp_eq_none_iff c.toNat
    rw [decode_of_lt_0x20 hlb hc]
    cases hop : decodeOp c.toNat with
    | none =>
      have hval := hnone.1 hop
      simp only [Option.elim_none, Except.error.injEq, reduceCtorEq, true_iff, false_iff]
      omega
    | some i =>
      have hval := mt hnone.2 (hop ▸ Option.some_ne_none i)
      simp only [Option.elim_some, reduceCtorEq, false_iff]
      omega
  · rcases Nat.lt_or_ge c.toNat 0x100 with hc' | hc'
    · simp only [decode_of_0x20_le hlb hc hc', Except.error.injEq, reduceCtorEq, true_iff, false_iff]
      omega
    · simp only [decode_of_0x100_le hlb hc', Except.error.injEq, reduceCtorEq, true_iff, false_iff]
      omega

/-! ### Words written out (R82, R83) -/

/-- Settles O1, by running the decoder on each of the thirteen words. -/
theorem writtenOutWordsDecode : Obligations.WrittenOutWordsDecode := by
  unfold Obligations.WrittenOutWordsDecode
  decide

end Sys2Proof.Proofs
end

section
/-! SUPPORT. Proofs of the statements of 41_add_sub.md: ADD and SUB complete with the sum and the difference of the
latches as W-bit words (R100, R102), the two limb-by-limb chains give that sum and difference (R101, R103), and from
them SUB as a comparison (R104) and the laws (R105). -/

namespace Sys2Proof.Proofs

open Sys2Proof Sys2Proof.Machine Sys2Proof.Laws

/-! ### Sum and difference (R100, R102) -/

/-- ADD writes the word sum of the latches; OVF says that the exact sum does not fit (R100). -/
theorem completes_add (s : State) : Completes .add s (s.block.lopa + s.block.lopb).toNat
    (decide (2 ^ s.params.w ≤ s.block.lopa.toNat + s.block.lopb.toNat)) :=
  completes_of_result (res := narrow s.params (s.block.lopa.toNat + s.block.lopb.toNat)) rfl
    ((narrow_toNat _ _).trans (BitVec.toNat_add _ _).symm)

/-- The two branches of SUB's meaning are one word difference. -/
theorem narrow_difference {p : Params} (a b : Wide p) :
    narrow p (if a.toNat < b.toNat then a.toNat + 2 ^ p.w - b.toNat else a.toNat - b.toNat) = a - b := by
  have hb := b.isLt
  apply BitVec.eq_of_toNat_eq
  rw [narrow_toNat, BitVec.toNat_sub]
  split
  · congr 1
    omega
  · have hwrap : 2 ^ p.w - b.toNat + a.toNat = a.toNat - b.toNat + 2 ^ p.w := by omega
    rw [hwrap, Nat.add_mod_right]

/-- SUB writes the word difference of the latches; OVF is the borrow (R102). -/
theorem completes_sub (s : State) : Completes .sub s (s.block.lopa - s.block.lopb).toNat
    (decide (s.block.lopa.toNat < s.block.lopb.toNat)) :=
  completes_of_result rfl (congrArg BitVec.toNat (narrow_difference s.block.lopa s.block.lopb))

/-- The word difference is the integer difference modulo 2^w. -/
theorem toNat_sub_eq_emod {w : Nat} (a b : BitVec w) :
    (a - b).toNat = (((a.toNat : Int) - b.toNat) % 2 ^ w).toNat := by
  have hb := b.isLt
  have hwrap : (a.toNat : Int) - b.toNat = ((2 ^ w - b.toNat + a.toNat : Nat) : Int) - (2 ^ w : Nat) := by omega
  have hcast : (2 : Int) ^ w = (2 ^ w : Nat) := (Nat.cast_pow 2 w).symm
  rw [BitVec.toNat_sub, hcast, hwrap, Int.sub_emod_right, ← Int.natCast_emod, Int.toNat_natCast]

/-- Settles O13, by `completes_add`: the word sum is the sum modulo 2^W. -/
theorem addResult : Obligations.AddResult :=
  ⟨fun _ => rfl, fun s => BitVec.toNat_add _ _ ▸ completes_add s⟩

/-- Settles O14, by `completes_sub` and `toNat_sub_eq_emod`. -/
theorem subResult : Obligations.SubResult :=
  ⟨fun _ => rfl, fun s => toNat_sub_eq_emod _ _ ▸ completes_sub s⟩

/-! ### The carry chain (R101) -/

/-- A number to which a digit `t` is added at the place `m`, below the next place `m * l`: the digit there is `t` and
the carry out of the places below, modulo `l`. -/
theorem add_digit_mod (x t l : Nat) {m : Nat} (hm : 0 < m) :
    (x + t * m) % (m * l) = x % m + (t + x / m) % l * m := by
  rw [Nat.mod_mul, Nat.add_mul_mod_self_right, Nat.add_mul_div_right _ _ hm, Nat.add_comm (x / m), Nat.mul_comm m]

/-- The carry out of the place `m` is what the digit and the carry into it leave above `l`. -/
theorem add_digit_div (x t l : Nat) {m : Nat} (hm : 0 < m) : (x + t * m) / (m * l) = (t + x / m) / l := by
  rw [← Nat.div_div_eq_div_mul, Nat.add_mul_div_right _ _ hm, Nat.add_comm (x / m)]

/-- After `k` limbs the carry chain holds the sum of the values below limb `k`: its low part and its carry. -/
theorem carryChain_eq {p : Params} (a b : Wide p) (k : Nat) :
    carryChain a b k =
      ((a.toNat % 2 ^ (p.lb * k) + b.toNat % 2 ^ (p.lb * k)) % 2 ^ (p.lb * k),
       (a.toNat % 2 ^ (p.lb * k) + b.toNat % 2 ^ (p.lb * k)) / 2 ^ (p.lb * k)) := by
  induction k with
  | zero => simp [carryChain, Nat.mod_one]
  | succ k ih =>
    have hm : 0 < 2 ^ (p.lb * k) := Nat.two_pow_pos _
    have hsum : a.toNat % 2 ^ (p.lb * (k + 1)) + b.toNat % 2 ^ (p.lb * (k + 1)) =
        a.toNat % 2 ^ (p.lb * k) + b.toNat % 2 ^ (p.lb * k) + (limbNat a k + limbNat b k) * 2 ^ (p.lb * k) := by
      rw [mod_limb_succ, mod_limb_succ]
      ring
    rw [hsum, Nat.mul_succ, Nat.pow_add, add_digit_mod _ _ _ hm, add_digit_div _ _ _ hm, carryChain, ih]

/-- The sum of two words is divided by `2^w` with the carry out as its quotient. -/
theorem add_div_eq_carryOut {w : Nat} (a b : BitVec w) :
    (a.toNat + b.toNat) / 2 ^ w = (decide (2 ^ w ≤ a.toNat + b.toNat)).toNat := by
  have ha := a.isLt
  have hb := b.isLt
  by_cases h : 2 ^ w ≤ a.toNat + b.toNat
  · rw [decide_eq_true h, Nat.div_eq_iff (Nat.two_pow_pos _), Bool.toNat_true]
    omega
  · rw [decide_eq_false h, Nat.div_eq_of_lt (Nat.lt_of_not_le h), Bool.toNat_false]

/-- The whole carry chain gives the word sum and the carry out of limb N - 1. -/
theorem carryChain_all {p : Params} (a b : Wide p) :
    carryChain a b p.n = ((a + b).toNat, (decide (2 ^ p.w ≤ a.toNat + b.toNat)).toNat) := by
  rw [carryChain_eq, mod_all_limbs, mod_all_limbs, Nat.mul_comm p.lb, add_div_eq_carryOut, BitVec.toNat_add]

/-- Settles O15: the chain's two parts are ADD's RES and OVF, by `carryChain_all`. -/
theorem addEqualsCarryChain : Obligations.AddEqualsCarryChain := by
  intro s
  rw [carryChain_all]
  exact ⟨_, completes_add s, rfl⟩

/-! ### The borrow chain (R103) -/

/-- `Nat.mod_mul` over the integers. -/
theorem int_emod_mul (x l : Int) {m : Int} (hm : 0 ≤ m) : x % (m * l) = x % m + x / m % l * m := by
  rw [Int.emod_def, ← Int.ediv_ediv_of_nonneg hm, Int.emod_def, Int.emod_def]
  ring

/-- A remainder by a power of two is no negative number. -/
theorem toNat_emod_two_pow (x : Int) (m : Nat) : ((x % 2 ^ m).toNat : Int) = x % 2 ^ m :=
  Int.toNat_of_nonneg (Int.emod_nonneg _ (by positivity))

/-- The difference of two numbers below `m` is divided by `m` downwards: the quotient is the borrow, negated. -/
theorem ediv_eq_neg_borrow {d m : Int} (hlow : -m ≤ d) (hhigh : d < m) : d / m = -(if d < 0 then 1 else 0) := by
  split
  · exact ((Int.ediv_emod_unique (r := d + m) (by omega)).2 ⟨by ring, by omega, by omega⟩).1
  · exact Int.ediv_eq_zero_of_lt (by omega) hhigh

/-- The difference of the values below limb `k`. -/
def lowDifference {p : Params} (a b : Wide p) (k : Nat) : Int :=
  ((a.toNat % 2 ^ (p.lb * k) : Nat) : Int) - (b.toNat % 2 ^ (p.lb * k) : Nat)

theorem lowDifference_succ {p : Params} (a b : Wide p) (k : Nat) :
    lowDifference a b (k + 1) = lowDifference a b k + ((limbNat a k : Int) - limbNat b k) * 2 ^ (p.lb * k) := by
  simp only [lowDifference, mod_limb_succ]
  push_cast
  ring

theorem lowDifference_all {p : Params} (a b : Wide p) : lowDifference a b p.n = (a.toNat : Int) - b.toNat := by
  rw [lowDifference, mod_all_limbs, mod_all_limbs]

theorem lowDifference_bounds {p : Params} (a b : Wide p) (k : Nat) :
    -2 ^ (p.lb * k) ≤ lowDifference a b k ∧ lowDifference a b k < 2 ^ (p.lb * k) := by
  have ha : a.toNat % 2 ^ (p.lb * k) < 2 ^ (p.lb * k) := Nat.mod_lt _ (Nat.two_pow_pos _)
  have hb : b.toNat % 2 ^ (p.lb * k) < 2 ^ (p.lb * k) := Nat.mod_lt _ (Nat.two_pow_pos _)
  zify at ha hb
  rw [lowDifference]
  push_cast
  omega

/-- The digit `t` that R103 computes for limb `k`, its borrow included, is the difference of the values below limb
`k + 1` divided by the place of limb `k`. -/
theorem borrowDigit_eq {p : Params} (a b : Wide p) (k : Nat) :
    (limbNat a k : Int) - limbNat b k - (if lowDifference a b k < 0 then 1 else 0 : Nat) =
      lowDifference a b (k + 1) / 2 ^ (p.lb * k) := by
  obtain ⟨hlow, hhigh⟩ := lowDifference_bounds a b k
  rw [lowDifference_succ, Int.add_mul_ediv_right _ _ (by positivity), ediv_eq_neg_borrow hlow hhigh]
  push_cast
  ring

/-- After `k` limbs the borrow chain holds the difference of the values below limb `k`: modulo that place, and its
borrow. -/
theorem borrowChain_eq {p : Params} (a b : Wide p) (k : Nat) :
    borrowChain a b k =
      ((lowDifference a b k % 2 ^ (p.lb * k)).toNat, if lowDifference a b k < 0 then 1 else 0) := by
  induction k with
  | zero => simp [borrowChain, lowDifference, Nat.mod_one]
  | succ k ih =>
    have hm : (0 : Int) < 2 ^ (p.lb * k) := by positivity
    have hlow : lowDifference a b (k + 1) % 2 ^ (p.lb * k) = lowDifference a b k % 2 ^ (p.lb * k) := by
      rw [lowDifference_succ, Int.add_mul_emod_self_right]
    have hsign : lowDifference a b (k + 1) / 2 ^ (p.lb * k) < 0 ↔ lowDifference a b (k + 1) < 0 := by
      rw [Int.ediv_lt_iff_lt_mul hm, Int.zero_mul]
    have hres : (lowDifference a b (k + 1) % 2 ^ (p.lb * (k + 1))).toNat =
        (lowDifference a b k % 2 ^ (p.lb * k)).toNat +
          (lowDifference a b (k + 1) / 2 ^ (p.lb * k) % 2 ^ p.lb).toNat * 2 ^ (p.lb * k) := by
      zify
      simp only [toNat_emod_two_pow]
      rw [Nat.mul_succ, Int.pow_add, int_emod_mul _ _ hm.le, hlow]
    simp only [borrowChain, ih, borrowDigit_eq, hsign, hres]

/-- The whole borrow chain gives the word difference and the borrow out of limb N - 1. -/
theorem borrowChain_all {p : Params} (a b : Wide p) :
    borrowChain a b p.n = ((a - b).toNat, (decide (a.toNat < b.toNat)).toNat) := by
  have hneg : lowDifference a b p.n < 0 ↔ a.toNat < b.toNat := by
    rw [lowDifference_all, sub_neg, Int.ofNat_lt]
  simp only [borrowChain_eq, hneg, Bool.toNat, Bool.cond_decide]
  rw [lowDifference_all, Nat.mul_comm p.lb, toNat_sub_eq_emod]

/-- Settles O16: the chain's two parts are SUB's RES and OVF, by `borrowChain_all`. -/
theorem subEqualsBorrowChain : Obligations.SubEqualsBorrowChain := by
  intro s
  rw [borrowChain_all]
  exact ⟨_, completes_sub s, rfl⟩

/-! ### SUB as a comparison (R104) -/

/-- Settles O18: OVF is the numeric order, which is the order of the limbs, and the word difference is 0 exactly where
the operands are equal. -/
theorem subDecidesTheOrder : Obligations.SubDecidesTheOrder := by
  intro s
  refine ⟨_, _, completes_sub s, ?_, ?_⟩
  · rw [decide_eq_true_iff, limbLess_iff_toNat_lt]
  · refine ⟨fun ⟨hzero, _⟩ => sub_eq_zero.1 (BitVec.eq_of_toNat_eq hzero), ?_⟩
    intro heq
    rw [heq, BitVec.sub_self, decide_eq_false (Nat.lt_irrefl _)]
    exact ⟨rfl, rfl⟩

/-! ### The laws (R105) -/

/-- `completes_add` of operands latched at will. -/
theorem completes_add_withLatches (s : State) (a b : Wide s.params) :
    Completes .add (s.withLatches a b) (a + b).toNat (decide (2 ^ s.params.w ≤ a.toNat + b.toNat)) :=
  completes_add (s.withLatches a b)

/-- `completes_sub` of operands latched at will. -/
theorem completes_sub_withLatches (s : State) (a b : Wide s.params) :
    Completes .sub (s.withLatches a b) (a - b).toNat (decide (a.toNat < b.toNat)) :=
  completes_sub (s.withLatches a b)

/-- Settles O19: each law is that of the word sum and difference. -/
theorem addSubLaws : Obligations.AddSubLaws := by
  intro s
  have hone : (1#s.params.w).toNat = 1 := BitVec.toNat_one (w_pos s.params)
  refine ⟨fun a b => ?commutes, fun a b c => ?associates, fun a b => ?undoes, ?wraps, ?borrows⟩
  case commutes =>
    have hba := completes_add_withLatches s b a
    rw [BitVec.add_comm, Nat.add_comm] at hba
    exact ⟨_, _, completes_add_withLatches s a b, hba⟩
  case associates =>
    have habc := completes_add_withLatches s a (b + c)
    rw [← BitVec.add_assoc] at habc
    exact ⟨_, _, _, _, _, _, _, completes_add_withLatches s a b, completes_add_withLatches s b c,
      completes_add_withLatches s (a + b) c, habc⟩
  case undoes =>
    have hsub := completes_sub_withLatches s (a + b) b
    rw [BitVec.add_sub_cancel] at hsub
    exact ⟨_, _, _, completes_add_withLatches s a b, hsub⟩
  case wraps =>
    have hsum : BitVec.allOnes s.params.w + 1#s.params.w = 0#s.params.w := by
      rw [← BitVec.neg_one_eq_allOnes, BitVec.add_left_neg]
    have hadd := completes_add_withLatches s (BitVec.allOnes _) 1#_
    rw [hsum, hone, BitVec.toNat_allOnes, Nat.sub_add_cancel Nat.one_le_two_pow, decide_eq_true le_rfl] at hadd
    exact hadd
  case borrows =>
    have hsub := completes_sub_withLatches s 0#_ 1#_
    rw [BitVec.zero_sub, BitVec.neg_one_eq_allOnes, BitVec.toNat_allOnes, hone] at hsub
    exact hsub

end Sys2Proof.Proofs
end

section
/-! SUPPORT. Proofs of the statements of 42_multiply.md: MUL and MULU complete with the product of their operands
modulo 2^W (R120, R122), the schoolbook accumulation and the single-row chain give that product (R121, R123), and the
laws (R124). -/

namespace Sys2Proof.Proofs

open Sys2Proof Sys2Proof.Machine Sys2Proof.Laws

/-! ### Products (R120, R122) -/

/-- MUL writes the product of the latches modulo 2^W; OVF says that the exact product does not fit (R120). -/
theorem completes_mul (s : State) : Completes .mul s (s.block.lopa.toNat * s.block.lopb.toNat % 2 ^ s.params.w)
    (decide (2 ^ s.params.w ≤ s.block.lopa.toNat * s.block.lopb.toNat)) :=
  completes_of_result rfl (narrow_toNat _ _)

/-- MULU does the same with limb 0 of LOPB in place of LOPB (R122). -/
theorem completes_mulu (s : State) : Completes .mulu s (s.block.lopa.toNat * limbNat s.block.lopb 0 % 2 ^ s.params.w)
    (decide (2 ^ s.params.w ≤ s.block.lopa.toNat * limbNat s.block.lopb 0)) :=
  completes_of_result rfl (narrow_toNat _ _)

/-- Settles O20, by `completes_mul`. -/
theorem mulResult : Obligations.MulResult := ⟨fun _ => rfl, completes_mul⟩

/-- Settles O21, by `completes_mulu`. -/
theorem muluResult : Obligations.MuluResult := ⟨fun _ => rfl, completes_mulu⟩

/-! ### The single-row chain (R123) -/

/-- After `k` limbs the single-row chain holds the product of `u` and the value below limb `k`: its low part and its
carry. -/
theorem unitProductChain_eq {p : Params} (a : Wide p) (u k : Nat) :
    unitProductChain a u k =
      (a.toNat % 2 ^ (p.lb * k) * u % 2 ^ (p.lb * k), a.toNat % 2 ^ (p.lb * k) * u / 2 ^ (p.lb * k)) := by
  induction k with
  | zero => simp [unitProductChain, Nat.mod_one]
  | succ k ih =>
    have hm : 0 < 2 ^ (p.lb * k) := Nat.two_pow_pos _
    have hproduct : a.toNat % 2 ^ (p.lb * (k + 1)) * u =
        a.toNat % 2 ^ (p.lb * k) * u + limbNat a k * u * 2 ^ (p.lb * k) := by
      rw [mod_limb_succ]
      ring
    rw [hproduct, Nat.mul_succ, Nat.pow_add, add_digit_mod _ _ _ hm, add_digit_div _ _ _ hm, unitProductChain, ih]

/-- The whole single-row chain gives the product's low W bits and the part above them. -/
theorem unitProductChain_all {p : Params} (a : Wide p) (u : Nat) :
    unitProductChain a u p.n = (a.toNat * u % 2 ^ p.w, a.toNat * u / 2 ^ p.w) := by
  rw [unitProductChain_eq, mod_all_limbs, Nat.mul_comm p.lb]

/-- A number has a part above the place `m` exactly when it reaches `m`. -/
theorem div_ne_zero_iff_le {v m : Nat} (hm : 0 < m) : v / m ≠ 0 ↔ m ≤ v := by
  rw [Nat.div_ne_zero_iff]
  exact and_iff_right hm.ne'

/-- Settles O23: the chain's two parts are MULU's RES and OVF, by `unitProductChain_all`. -/
theorem muluEqualsUnitProductChain : Obligations.MuluEqualsUnitProductChain := by
  intro s
  simp only [unitProductChain_all, div_ne_zero_iff_le (Nat.two_pow_pos _)]
  exact completes_mulu s

/-! ### Accumulators as lists of limbs (R8, R121) -/

/-- `limbSum` is Mathlib's reading of a list of digits in base 2^LB. -/
theorem limbSum_eq_ofDigits (lb : Nat) (limbs : List Nat) : limbSum lb limbs = Nat.ofDigits (2 ^ lb) limbs := by
  induction limbs with
  | nil => rfl
  | cons x rest ih => rw [limbSum, ih, Nat.ofDigits_cons]

/-- Replacing a limb changes the sum by what the limb at that place changes by. -/
theorem limbSum_set (lb v : Nat) {limbs : List Nat} {k : Nat} (hk : k < limbs.length) :
    limbSum lb (limbs.set k v) + limbs.getD k 0 * 2 ^ (lb * k) = limbSum lb limbs + v * 2 ^ (lb * k) := by
  induction limbs generalizing k with
  | nil => simp at hk
  | cons x rest ih =>
    cases k with
    | zero =>
      simp only [List.set_cons_zero, List.getD_cons_zero, limbSum, Nat.mul_zero, Nat.pow_zero, Nat.mul_one]
      ring
    | succ k =>
      have hrest := ih (Nat.lt_of_succ_lt_succ hk)
      simp only [List.set_cons_succ, List.getD_cons_succ, limbSum, Nat.mul_succ, Nat.pow_add]
      linear_combination 2 ^ lb * hrest

theorem limbSum_eq_zero_iff (lb : Nat) (limbs : List Nat) : limbSum lb limbs = 0 ↔ ∀ x ∈ limbs, x = 0 := by
  induction limbs with
  | nil => simp [limbSum]
  | cons x rest ih => simp [limbSum, ih]

/-- Some limb is not zero exactly when the sum is not. -/
theorem any_ne_zero_eq (lb : Nat) (limbs : List Nat) :
    limbs.any (fun x => x != 0) = decide (limbSum lb limbs ≠ 0) := by
  rw [Bool.eq_iff_iff, decide_eq_true_iff, ne_eq, limbSum_eq_zero_iff]
  simp

theorem getD_zero_lt {limbs : List Nat} {m : Nat} (hm : 0 < m) (h : ∀ x ∈ limbs, x < m) (k : Nat) :
    limbs.getD k 0 < m := by
  rw [List.getD_eq_getElem?_getD]
  cases hk : limbs[k]? with
  | none => exact hm
  | some x => exact h x (List.mem_of_getElem? hk)

/-- R121's bound on `t`: with all four numbers below `m`, the digit stays below `m * m`. -/
theorem add_mul_add_lt {x a b c m : Nat} (hx : x < m) (ha : a < m) (hb : b < m) (hc : c < m) :
    x + a * b + c < m * m := by
  obtain ⟨m, rfl⟩ := Nat.exists_eq_succ_of_ne_zero (Nat.ne_zero_of_lt hx)
  have hab : a * b ≤ m * m := Nat.mul_le_mul (Nat.le_of_lt_succ ha) (Nat.le_of_lt_succ hb)
  rw [Nat.succ_mul, Nat.mul_succ]
  omega

/-! ### The rows of the schoolbook accumulation (R121) -/

section schoolbook

variable {p : Params} (a b : Wide p) (i : Nat) (acc : List Nat)

/-- `t` of R121 in row `i` and column `j`. -/
def columnSum (j : Nat) : Nat :=
  (productRow a b i acc j).1.getD (i + j) 0 + limbNat a i * limbNat b j + (productRow a b i acc j).2

theorem productRow_succ (j : Nat) :
    productRow a b i acc (j + 1) =
      ((productRow a b i acc j).1.set (i + j) (columnSum a b i acc j % 2 ^ p.lb),
       columnSum a b i acc j / 2 ^ p.lb) := rfl

@[simp] theorem productRow_length (j : Nat) : (productRow a b i acc j).1.length = acc.length := by
  induction j with
  | zero => rfl
  | succ j ih => rw [productRow_succ, List.length_set, ih]

/-- `j` columns of row `i` leave the limbs from `i + j` up alone. -/
theorem productRow_getD {j k : Nat} (h : i + j ≤ k) : (productRow a b i acc j).1.getD k 0 = acc.getD k 0 := by
  induction j with
  | zero => rfl
  | succ j ih =>
    rw [← ih (by omega), productRow_succ, List.getD_eq_getElem?_getD, List.getElem?_set_ne (by omega),
      List.getD_eq_getElem?_getD]

/-- Limbs stay limbs, and the carry is a limb too. -/
theorem productRow_lt (hacc : ∀ x ∈ acc, x < 2 ^ p.lb) (j : Nat) :
    (∀ x ∈ (productRow a b i acc j).1, x < 2 ^ p.lb) ∧ (productRow a b i acc j).2 < 2 ^ p.lb := by
  have hm : 0 < 2 ^ p.lb := Nat.two_pow_pos _
  induction j with
  | zero => exact ⟨hacc, hm⟩
  | succ j ih =>
    obtain ⟨hlimbs, hcarry⟩ := ih
    refine ⟨fun x hx => ?_, Nat.div_lt_of_lt_mul
      (add_mul_add_lt (getD_zero_lt hm hlimbs _) (limbNat_lt a i) (limbNat_lt b j) hcarry)⟩
    rcases List.mem_or_eq_of_mem_set hx with hx | rfl
    · exact hlimbs x hx
    · exact Nat.mod_lt _ hm

/-- `j` columns of row `i` add limb `i` of the multiplicand times the multiplier's value below limb `j`, at the place of
limb `i`; the carry stands at limb `i + j`. -/
theorem productRow_limbSum {j : Nat} (h : i + j ≤ acc.length) :
    limbSum p.lb (productRow a b i acc j).1 + (productRow a b i acc j).2 * 2 ^ (p.lb * (i + j)) =
      limbSum p.lb acc + limbNat a i * (b.toNat % 2 ^ (p.lb * j)) * 2 ^ (p.lb * i) := by
  induction j with
  | zero => simp [productRow, Nat.mod_one]
  | succ j ih =>
    have hbefore := ih (by omega)
    have hset := limbSum_set p.lb (columnSum a b i acc j % 2 ^ p.lb) (limbs := (productRow a b i acc j).1)
      (k := i + j) (by rw [productRow_length]; omega)
    have hdigit : columnSum a b i acc j % 2 ^ p.lb + 2 ^ p.lb * (columnSum a b i acc j / 2 ^ p.lb) =
        (productRow a b i acc j).1.getD (i + j) 0 + limbNat a i * limbNat b j + (productRow a b i acc j).2 :=
      Nat.mod_add_div _ _
    rw [mod_limb_succ, productRow_succ]
    linear_combination hbefore + hset + 2 ^ (p.lb * (i + j)) * hdigit

@[simp] theorem schoolbook_length : (schoolbook a b i).length = 2 * p.n := by
  induction i with
  | zero => simp [schoolbook]
  | succ i ih => simp [schoolbook, ih]

/-- Before row `i`, the limbs from `i + N` up are still zero. -/
theorem schoolbook_getD {k : Nat} (h : i + p.n ≤ k) : (schoolbook a b i).getD k 0 = 0 := by
  induction i with
  | zero => rw [schoolbook, List.getD_eq_getElem?_getD, List.getElem?_getD_replicate_default_eq]
  | succ i ih =>
    rw [schoolbook, List.getD_eq_getElem?_getD, List.getElem?_set_ne (by omega), ← List.getD_eq_getElem?_getD,
      productRow_getD _ _ _ _ (by omega), ih (by omega)]

theorem schoolbook_lt : ∀ x ∈ schoolbook a b i, x < 2 ^ p.lb := by
  induction i with
  | zero => simp [schoolbook]
  | succ i ih =>
    obtain ⟨hlimbs, hcarry⟩ := productRow_lt a b i _ ih p.n
    intro x hx
    rcases List.mem_or_eq_of_mem_set hx with hx | rfl
    · exact hlimbs x hx
    · exact hcarry

/-- After `i` rows the accumulator holds the multiplicand's value below limb `i` times the multiplier. -/
theorem schoolbook_limbSum (hi : i ≤ p.n) :
    limbSum p.lb (schoolbook a b i) = a.toNat % 2 ^ (p.lb * i) * b.toNat := by
  induction i with
  | zero => simp [schoolbook, limbSum_eq_ofDigits, Nat.ofDigits_replicate_zero, Nat.mod_one]
  | succ i ih =>
    have hrow := productRow_limbSum a b i (schoolbook a b i) (j := p.n) (by rw [schoolbook_length]; omega)
    have hset := limbSum_set p.lb (productRow a b i (schoolbook a b i) p.n).2
      (limbs := (productRow a b i (schoolbook a b i) p.n).1) (k := i + p.n)
      (by rw [productRow_length, schoolbook_length]; omega)
    rw [productRow_getD _ _ _ _ le_rfl, schoolbook_getD _ _ _ le_rfl, Nat.zero_mul, Nat.add_zero, hrow,
      mod_all_limbs, ih (by omega)] at hset
    rw [schoolbook, hset, mod_limb_succ]
    ring

/-- The whole accumulator holds the exact product. -/
theorem schoolbook_all : limbSum p.lb (schoolbook a b p.n) = a.toNat * b.toNat := by
  rw [schoolbook_limbSum a b p.n le_rfl, mod_all_limbs]

/-- Its lower N limbs are the product modulo 2^W. -/
theorem schoolbook_take : limbSum p.lb ((schoolbook a b p.n).take p.n) = a.toNat * b.toNat % 2 ^ p.w := by
  rw [limbSum_eq_ofDigits, ← Nat.ofDigits_mod_pow_eq_ofDigits_take _ (Nat.two_pow_pos _) _ (schoolbook_lt a b p.n),
    ← limbSum_eq_ofDigits, schoolbook_all, ← Nat.pow_mul, Nat.mul_comm p.lb]

/-- Its upper N limbs are the product's part above bit W. -/
theorem schoolbook_drop : limbSum p.lb ((schoolbook a b p.n).drop p.n) = a.toNat * b.toNat / 2 ^ p.w := by
  rw [limbSum_eq_ofDigits, ← Nat.ofDigits_div_pow_eq_ofDigits_drop _ (Nat.two_pow_pos _) _ (schoolbook_lt a b p.n),
    ← limbSum_eq_ofDigits, schoolbook_all, ← Nat.pow_mul, Nat.mul_comm p.lb]

end schoolbook

/-- Settles O22: the accumulator's two halves are MUL's RES and OVF, by `schoolbook_take` and `schoolbook_drop`. -/
theorem mulEqualsSchoolbook : Obligations.MulEqualsSchoolbook := by
  intro s
  simp only [any_ne_zero_eq s.params.lb, schoolbook_take, schoolbook_drop, div_ne_zero_iff_le (Nat.two_pow_pos _)]
  exact completes_mul s

/-! ### The laws (R124) -/

/-- A limb zero-extended into a whole register keeps its value, so limb 0 can stand as MUL's operand (R85). -/
theorem toNat_setWidth_limb {p : Params} (x : Wide p) (i : Nat) : ((limb x i).setWidth p.w).toNat = limbNat x i :=
  BitVec.toNat_setWidth_of_le (lb_le_w p)

/-- `completes_mul` of operands latched at will. -/
theorem completes_mul_withLatches (s : State) (a b : Wide s.params) :
    Completes .mul (s.withLatches a b) (a.toNat * b.toNat % 2 ^ s.params.w)
      (decide (2 ^ s.params.w ≤ a.toNat * b.toNat)) :=
  completes_mul (s.withLatches a b)

/-- `completes_mulu` of operands latched at will. -/
theorem completes_mulu_withLatches (s : State) (a b : Wide s.params) :
    Completes .mulu (s.withLatches a b) (a.toNat * limbNat b 0 % 2 ^ s.params.w)
      (decide (2 ^ s.params.w ≤ a.toNat * limbNat b 0)) :=
  completes_mulu (s.withLatches a b)

/-- Settles O24: the product of the operands commutes, and limb 0 as a whole operand is the unit operand. -/
theorem mulLaws : Obligations.MulLaws := by
  intro s
  refine ⟨fun a b => ?commutes, fun a b => ?unit⟩
  case commutes =>
    have hba := completes_mul_withLatches s b a
    rw [Nat.mul_comm] at hba
    exact ⟨_, _, completes_mul_withLatches s a b, hba⟩
  case unit =>
    have hmul := completes_mul_withLatches s a ((limb b 0).setWidth _)
    rw [toNat_setWidth_limb] at hmul
    exact ⟨_, _, completes_mulu_withLatches s a b, hmul⟩

end Sys2Proof.Proofs
end

section
/-! SUPPORT. Proofs of the statements of 43_divide.md: DIVREM and DIVU complete with quotient and remainder, or signal
DBZ (R140, R141), the restoring division and the limb-serial division give those values (R142, R143), and the laws
(R144). -/

namespace Sys2Proof.Proofs

open Sys2Proof Sys2Proof.Machine Sys2Proof.Laws

/-! ### Quotients and remainders (R140, R141) -/

/-- DIVREM by a non-zero B writes quotient and remainder (R140). -/
theorem completes_divrem {s : State} (h : s.block.lopb.toNat ≠ 0) :
    CompletesDivision .divrem s (s.block.lopa.toNat / s.block.lopb.toNat)
      (s.block.lopa.toNat % s.block.lopb.toNat) :=
  completesDivision_of_divideBy rfl h

/-- DIVU does the same with limb 0 of LOPB in place of LOPB (R141). -/
theorem completes_divu {s : State} (h : limbNat s.block.lopb 0 ≠ 0) :
    CompletesDivision .divu s (s.block.lopa.toNat / limbNat s.block.lopb 0)
      (s.block.lopa.toNat % limbNat s.block.lopb 0) :=
  completesDivision_of_divideBy rfl h

/-- Settles O25: one branch by `signalsDbz_of_divideBy`, the other by `completes_divrem`. -/
theorem divremResult : Obligations.DivremResult :=
  ⟨fun _ => rfl, fun _ => ⟨signalsDbz_of_divideBy rfl, completes_divrem⟩⟩

/-- Settles O26: one branch by `signalsDbz_of_divideBy`, the other by `completes_divu`. -/
theorem divuResult : Obligations.DivuResult :=
  ⟨fun _ => rfl, fun _ => ⟨signalsDbz_of_divideBy rfl, completes_divu⟩⟩

/-! ### Long division, one digit at a time

Once the digits of `a` from place `m` up are brought down, a long division by `u` holds the quotient and remainder of
`a / m`, the quotient at its place. Both divisions keep this, bringing down a bit or a limb at a step. -/

/-- What a long division of `a` by `u` holds when it has brought down the digits from place `m` up. -/
def dividedDownTo (a u m : Nat) : Nat × Nat := (a / m / u * m, a / m % u)

/-- Before the first digit, at a place above `a`, nothing is held. -/
theorem dividedDownTo_of_lt {a m : Nat} (u : Nat) (h : a < m) : dividedDownTo a u m = (0, 0) := by
  simp [dividedDownTo, Nat.div_eq_of_lt h]

/-- After the last digit, the quotient and the remainder are held. -/
theorem dividedDownTo_one (a u : Nat) : dividedDownTo a u 1 = (a / u, a % u) := by
  simp [dividedDownTo]

/-- Bringing down the digit `d` in base `l` adds the quotient of the partial dividend `r * l + d`, at the digit's place,
and leaves its remainder. -/
theorem dividedDownTo_bring_down {a u m l d : Nat} (hu : u ≠ 0) (hd : a / m % l = d) :
    dividedDownTo a u m =
      ((dividedDownTo a u (m * l)).1 + ((dividedDownTo a u (m * l)).2 * l + d) / u * m,
       ((dividedDownTo a u (m * l)).2 * l + d) % u) := by
  have hdividend : a / m = (a / (m * l) % u * l + d) + u * (a / (m * l) / u * l) := by
    rw [← Nat.div_div_eq_div_mul, ← hd]
    linear_combination -(Nat.div_add_mod (a / m) l) - l * Nat.mod_add_div (a / m / l) u
  have hquotient := Nat.add_mul_div_left (a / (m * l) % u * l + d) (a / (m * l) / u * l) (Nat.pos_of_ne_zero hu)
  have hremainder := Nat.add_mul_mod_self_left (a / (m * l) % u * l + d) u (a / (m * l) / u * l)
  rw [← hdividend] at hquotient hremainder
  simp only [dividedDownTo, hquotient, hremainder, Prod.mk.injEq, and_true]
  ring

/-! ### The restoring division (R142) -/

/-- The partial dividend of a step of the restoring division stays below twice the divisor. -/
theorem two_mul_add_bit_lt {r u : Nat} (bit : Bool) (h : r < u) : 2 * r + bit.toNat < 2 * u := by
  have := Bool.toNat_le bit
  omega

/-- One step of the restoring division divides its partial dividend: the quotient's bit is 1 where `b` is taken off. -/
theorem restoringDivide_succ {a b k q r : Nat} (hr : r < b) :
    restoringDivide a b (k + 1) (q, r) = restoringDivide a b k
      (q + (r * 2 + (a.testBit k).toNat) / b * 2 ^ k, (r * 2 + (a.testBit k).toNat) % b) := by
  have hlt := two_mul_add_bit_lt (a.testBit k) hr
  rw [restoringDivide, Nat.mul_comm r]
  by_cases hle : b ≤ 2 * r + (a.testBit k).toNat
  · have hquotient : (2 * r + (a.testBit k).toNat) / b = 1 := Nat.div_eq_of_lt_le (by omega) (by omega)
    rw [if_pos hle, hquotient, Nat.one_mul, Nat.mod_eq_sub_mod hle, Nat.mod_eq_of_lt (by omega)]
  · have hbelow := Nat.lt_of_not_le hle
    rw [if_neg hle, Nat.div_eq_of_lt hbelow, Nat.zero_mul, Nat.add_zero, Nat.mod_eq_of_lt hbelow]

/-- The restoring division goes on from the bits from `k` up to quotient and remainder. -/
theorem restoringDivide_dividedDownTo (a : Nat) {b : Nat} (hb : b ≠ 0) (k : Nat) :
    restoringDivide a b k (dividedDownTo a b (2 ^ k)) = (a / b, a % b) := by
  induction k with
  | zero => exact dividedDownTo_one a b
  | succ k ih =>
    have hstep := restoringDivide_succ (a := a) (k := k) (q := (dividedDownTo a b (2 ^ (k + 1))).1)
      (Nat.mod_lt (a / 2 ^ (k + 1)) (Nat.pos_of_ne_zero hb))
    rw [← ih, dividedDownTo_bring_down hb (Nat.toNat_testBit a k).symm]
    exact hstep

/-- The whole restoring division of a number below `2^w`. -/
theorem restoringDivide_all {a b w : Nat} (hb : b ≠ 0) (ha : a < 2 ^ w) :
    restoringDivide a b w (0, 0) = (a / b, a % b) := by
  rw [← dividedDownTo_of_lt b ha, restoringDivide_dividedDownTo a hb]

/-- Settles O27: the restoring division's two parts are DIVREM's RES and REM, by `restoringDivide_all`. -/
theorem divremEqualsRestoringDivision : Obligations.DivremEqualsRestoringDivision := by
  intro s hb
  rw [restoringDivide_all hb s.block.lopa.isLt]
  exact completes_divrem hb

/-! ### The limb-serial division (R143) -/

/-- The limb-serial division goes on from the limbs from `i` up to quotient and remainder. -/
theorem limbDivide_dividedDownTo {p : Params} (a : Wide p) {u : Nat} (hu : u ≠ 0) (i : Nat) :
    limbDivide a u i (dividedDownTo a.toNat u (2 ^ (p.lb * i))) = (a.toNat / u, a.toNat % u) := by
  induction i with
  | zero => exact dividedDownTo_one a.toNat u
  | succ i ih =>
    rw [← ih, dividedDownTo_bring_down hu (limbNat_eq a i).symm, Nat.mul_succ, Nat.pow_add]
    rfl

/-- The whole limb-serial division. -/
theorem limbDivide_all {p : Params} (a : Wide p) {u : Nat} (hu : u ≠ 0) :
    limbDivide a u p.n (0, 0) = (a.toNat / u, a.toNat % u) := by
  have ha : a.toNat < 2 ^ (p.lb * p.n) := Nat.mul_comm p.lb _ ▸ a.isLt
  rw [← dividedDownTo_of_lt u ha, limbDivide_dividedDownTo a hu]

/-- Settles O28: the limb-serial division's two parts are DIVU's RES and REM, by `limbDivide_all`. -/
theorem divuEqualsLimbDivision : Obligations.DivuEqualsLimbDivision := by
  intro s hu
  rw [limbDivide_all _ hu]
  exact completes_divu hu

/-! ### The laws (R144) -/

/-- A value that fits one limb has zeros in the limbs above limb 0. -/
theorem limb_eq_zero_of_lt {p : Params} {x : Wide p} {i : Nat} (hx : x.toNat < 2 ^ p.lb) (hi : 0 < i) :
    limb x i = 0 := by
  have hplace : 2 ^ p.lb ≤ 2 ^ (p.lb * i) := Nat.pow_le_pow_right (by decide) (Nat.le_mul_of_pos_right _ hi)
  apply BitVec.eq_of_toNat_eq
  calc limbNat x i = x.toNat / 2 ^ (p.lb * i) % 2 ^ p.lb := limbNat_eq x i
    _ = 0 := by rw [Nat.div_eq_of_lt (Nat.lt_of_lt_of_le hx hplace), Nat.zero_mod]

/-- Settles O29: Euclid's laws of `/` and `%`, and DIVU's remainder is below a limb, so it fits limb 0. -/
theorem divisionLaws : Obligations.DivisionLaws := by
  intro s
  refine ⟨fun hb => ?divrem, fun hu => ?divu⟩
  case divrem =>
    exact ⟨_, _, completes_divrem hb, Nat.div_add_mod' _ _, Nat.mod_lt _ (Nat.pos_of_ne_zero hb)⟩
  case divu =>
    obtain ⟨b, hexec, hres, hrem, hkept⟩ := completes_divu hu
    have hlt : b.rem.toNat < limbNat s.block.lopb 0 := hrem ▸ Nat.mod_lt _ (Nat.pos_of_ne_zero hu)
    refine ⟨_, b.rem, ⟨b, hexec, hres, rfl, hkept⟩, ?_, hlt, fun i hi _ => ?_⟩
    · rw [hrem, Nat.div_add_mod']
    · exact limb_eq_zero_of_lt (hlt.trans (limbNat_lt _ 0)) hi

end Sys2Proof.Proofs
end

section
/-! SUPPORT. Proofs of the statements of 44_logic_shift.md: the logic commands complete with the bitwise words of the
latches (R160 to R163), and so limb by limb (R164); SHL and SHR complete with the shifted value, which is 0 once the
amount reaches W (R165, R166), and each limb of it comes from two neighbouring limbs of A (R167). -/

namespace Sys2Proof.Proofs

open Sys2Proof Sys2Proof.Machine Sys2Proof.Laws

/-! ### Bitwise logic (R160 to R164) -/

/-- AND writes the conjunction of the latches, bit by bit (R160). -/
theorem completes_and (s : State) : Completes .and s (s.block.lopa &&& s.block.lopb).toNat false :=
  completes_of_result rfl rfl

/-- OR writes the disjunction of the latches, bit by bit (R161). -/
theorem completes_or (s : State) : Completes .or s (s.block.lopa ||| s.block.lopb).toNat false :=
  completes_of_result rfl rfl

/-- XOR writes the exclusive or of the latches, bit by bit (R162). -/
theorem completes_xor (s : State) : Completes .xor s (s.block.lopa ^^^ s.block.lopb).toNat false :=
  completes_of_result rfl rfl

/-- `(2^W - 1) - A`, as R163 writes NOT's result, is the word complement of A. -/
theorem narrow_complement {p : Params} (a : Wide p) : narrow p (2 ^ p.w - 1 - a.toNat) = ~~~a := by
  apply BitVec.eq_of_toNat_eq
  rw [BitVec.toNat_not, narrow_toNat_of_lt]
  exact Nat.lt_of_le_of_lt (Nat.sub_le _ _) (Nat.sub_one_lt (Nat.two_pow_pos _).ne')

/-- NOT writes the complement of A, bit by bit (R163). -/
theorem completes_not (s : State) : Completes .not s (~~~s.block.lopa).toNat false :=
  completes_of_result rfl (congrArg BitVec.toNat (narrow_complement s.block.lopa))

/-- Settles O30: the bits of the four words. -/
theorem logicResults : Obligations.LogicResults := by
  refine ⟨fun _ => ⟨rfl, rfl, rfl, rfl⟩, fun s => ⟨?and, ?or, ?xor, ?not⟩⟩
  case and => exact ⟨_, completes_and s, fun k _ => BitVec.getLsbD_and⟩
  case or => exact ⟨_, completes_or s, fun k _ => BitVec.getLsbD_or⟩
  case xor => exact ⟨_, completes_xor s, fun k _ => BitVec.getLsbD_xor⟩
  case not =>
    refine ⟨_, completes_not s, BitVec.toNat_not, fun k hk => ?_⟩
    rw [BitVec.getLsbD_not, decide_eq_true hk, Bool.true_and]

/-- Complementing a register complements its limbs below N, whose bits lie within the register. -/
theorem limb_not {p : Params} (a : Wide p) {i : Nat} (hi : i < p.n) : limb (~~~a) i = ~~~limb a i := by
  have hend := limb_end_le_w p hi
  apply BitVec.eq_of_getLsbD_eq
  intro j hj
  have hbit : p.lb * i + j < p.w := by omega
  simp only [limb_getLsbD, BitVec.getLsbD_not, hj, hbit, decide_true, Bool.true_and]

/-- Settles O31: extracting a limb commutes with the bitwise operations. -/
theorem logicActsLimbByLimb : Obligations.LogicActsLimbByLimb := by
  refine fun s => ⟨?and, ?or, ?xor, ?not⟩
  case and => exact ⟨_, completes_and s, fun i _ => BitVec.extractLsb'_and⟩
  case or => exact ⟨_, completes_or s, fun i _ => BitVec.extractLsb'_or⟩
  case xor => exact ⟨_, completes_xor s, fun i _ => BitVec.extractLsb'_xor⟩
  case not => exact ⟨_, completes_not s, fun i hi => limb_not _ hi⟩

/-! ### Shifts (R165, R166) -/

/-- A left shift by W or more leaves no bit below bit W. -/
theorem mul_two_pow_mod_eq_zero (v : Nat) {k w : Nat} (h : w ≤ k) : v * 2 ^ k % 2 ^ w = 0 :=
  Nat.mod_eq_zero_of_dvd (Dvd.dvd.mul_left (pow_dvd_pow 2 h) v)

/-- A right shift by W or more leaves no bit of a W-bit value. -/
theorem toNat_div_two_pow_eq_zero {w : Nat} (x : BitVec w) {k : Nat} (h : w ≤ k) : x.toNat / 2 ^ k = 0 :=
  Nat.div_eq_of_lt (Nat.lt_of_lt_of_le x.isLt (Nat.pow_le_pow_right (by decide) h))

/-- SHL writes `A · 2^s` modulo 2^W, whether or not `s` reaches W; OVF says whether it does (R165). -/
theorem completes_shl (s : State) :
    Completes .shl s (s.block.lopa.toNat * 2 ^ s.block.lopb.toNat % 2 ^ s.params.w)
      (decide (s.params.w ≤ s.block.lopb.toNat)) := by
  refine completes_of_result rfl ?_
  split
  · rename_i hs
    exact (mul_two_pow_mod_eq_zero _ hs).symm
  · exact narrow_toNat _ _

/-- A right shift fits W bits. -/
theorem narrow_div_toNat {p : Params} (x : Wide p) (k : Nat) : (narrow p (x.toNat / k)).toNat = x.toNat / k :=
  narrow_toNat_of_lt p (Nat.lt_of_le_of_lt (Nat.div_le_self _ _) x.isLt)

/-- SHR writes `floor(A / 2^s)`, whether or not `s` reaches W; OVF says whether it does (R166). -/
theorem completes_shr (s : State) :
    Completes .shr s (s.block.lopa.toNat / 2 ^ s.block.lopb.toNat) (decide (s.params.w ≤ s.block.lopb.toNat)) := by
  refine completes_of_result rfl ?_
  split
  · rename_i hs
    exact (toNat_div_two_pow_eq_zero _ hs).symm
  · exact narrow_div_toNat _ _

/-- Settles O32, by `completes_shl`. -/
theorem shlResult : Obligations.ShlResult := by
  refine ⟨fun _ => rfl, fun s => ⟨fun hs => ?_, fun hs => ?_⟩⟩
  all_goals have h := completes_shl s
  · rwa [mul_two_pow_mod_eq_zero _ hs, decide_eq_true hs] at h
  · rwa [decide_eq_false (Nat.not_le_of_lt hs)] at h

/-- Settles O33, by `completes_shr`. -/
theorem shrResult : Obligations.ShrResult := by
  refine ⟨fun _ => rfl, fun s => ⟨fun hs => ?_, fun hs => ?_⟩⟩
  all_goals have h := completes_shr s
  · rwa [toNat_div_two_pow_eq_zero _ hs, decide_eq_true hs] at h
  · rwa [decide_eq_false (Nat.not_le_of_lt hs)] at h

/-! ### The limbs of a shifted value (R167)

A shift by `s` is one by whole limbs, which moves the limbs, and one within a limb, which takes each limb of the result
from two neighbouring ones. -/

/-- A digit of base `2^l` of a number shifted right by at most `l` bits: the upper bits of the number's own digit, and
above them the lower bits of the next one. -/
theorem div_two_pow_mod_two_pow (x : Nat) {r l : Nat} (h : r ≤ l) :
    x / 2 ^ r % 2 ^ l = x % 2 ^ l / 2 ^ r + x / 2 ^ l % 2 ^ l * 2 ^ (l - r) % 2 ^ l := by
  have hsplit : 2 ^ l = 2 ^ r * 2 ^ (l - r) := (pow_mul_pow_sub 2 h).symm
  have hlower : x % 2 ^ l / 2 ^ r = x / 2 ^ r % 2 ^ (l - r) := by rw [hsplit, Nat.mod_mul_right_div_self]
  have hupper : x / 2 ^ l % 2 ^ l * 2 ^ (l - r) % 2 ^ l = x / 2 ^ l % 2 ^ r * 2 ^ (l - r) := by
    rw [Nat.mod_mul_mod, hsplit, Nat.mul_mod_mul_right]
  calc x / 2 ^ r % 2 ^ l
      = x / 2 ^ r % (2 ^ (l - r) * 2 ^ r) := by rw [hsplit, Nat.mul_comm]
    _ = x / 2 ^ r % 2 ^ (l - r) + x / 2 ^ l % 2 ^ r * 2 ^ (l - r) := by
        rw [Nat.mod_mul, Nat.div_div_eq_div_mul, ← hsplit, Nat.mul_comm (2 ^ (l - r))]
    _ = _ := by rw [hlower, hupper]

/-- Narrowing loses no bit of the limbs below N. -/
theorem limbNat_narrow (p : Params) (v : Nat) {i : Nat} (hi : i < p.n) :
    limbNat (narrow p v) i = v / 2 ^ (p.lb * i) % 2 ^ p.lb := by
  have hend := limb_end_le_w p hi
  have hsplit : 2 ^ p.w = 2 ^ (p.lb * i) * 2 ^ (p.w - p.lb * i) := (pow_mul_pow_sub 2 (by omega)).symm
  rw [limbNat_eq, narrow_toNat, hsplit, Nat.mod_mul_right_div_self, Nat.mod_mod_of_dvd _ (pow_dvd_pow 2 (by omega))]

theorem limbOrZero_lt {p : Params} (a : Wide p) (j : Int) : limbOrZero a j < 2 ^ p.lb := by
  unfold limbOrZero
  split
  · exact limbNat_lt _ _
  · exact Nat.two_pow_pos _

/-- The limbs of a register are 0 from limb N up, so `limbOrZero` reads what lies `d` limbs above limb `i`. -/
theorem limbOrZero_add {p : Params} (a : Wide p) (i d : Nat) :
    limbOrZero a ((i : Int) + d) = a.toNat / 2 ^ (p.lb * (i + d)) % 2 ^ p.lb := by
  unfold limbOrZero
  split
  · exact limbNat_eq a (i + d)
  · have hbeyond : p.w ≤ p.lb * (i + d) := by
      rw [Params.w, Nat.mul_comm]
      exact Nat.mul_le_mul_left _ (by omega)
    rw [toNat_div_two_pow_eq_zero a hbeyond, Nat.zero_mod]

/-- Below limb N, what lies `d` limbs below limb `i` stands at limb `i` once the value is shifted left by `d` limbs. -/
theorem limbOrZero_sub {p : Params} (a : Wide p) {i : Nat} (hi : i < p.n) (d : Nat) :
    limbOrZero a ((i : Int) - d) = a.toNat * 2 ^ (p.lb * d) / 2 ^ (p.lb * i) % 2 ^ p.lb := by
  rcases le_or_gt d i with hd | hd
  · obtain ⟨k, rfl⟩ := Nat.exists_eq_add_of_le' hd
    have hread : limbOrZero a (((k + d : Nat) : Int) - d) = limbNat a k := by
      rw [Nat.cast_add, Int.add_sub_cancel]
      exact if_pos (by omega)
    rw [hread, limbNat_eq, Nat.mul_add, Nat.pow_add, Nat.mul_div_mul_right _ _ (Nat.two_pow_pos _)]
  · have hzero : limbOrZero a ((i : Int) - d) = 0 := if_neg (by omega)
    have hplace : p.lb * d = p.lb * i + p.lb * (d - i) := by rw [← Nat.mul_add, Nat.add_sub_cancel' hd.le]
    have hlb : p.lb ≤ p.lb * (d - i) := Nat.le_mul_of_pos_right _ (Nat.sub_pos_of_lt hd)
    rw [hzero, hplace, Nat.pow_add, Nat.mul_left_comm, Nat.mul_div_cancel_left _ (Nat.two_pow_pos _),
      mul_two_pow_mod_eq_zero _ hlb]

/-- R167's formula for SHL without its case of `r = 0`, where the lower neighbour's part is 0 by itself. -/
theorem shlLimb_eq {p : Params} (a : Wide p) (s i : Nat) :
    shlLimb a s i = limbOrZero a ((i : Int) - (s / p.lb : Nat)) * 2 ^ (s % p.lb) % 2 ^ p.lb +
      limbOrZero a ((i : Int) - (s / p.lb + 1 : Nat)) / 2 ^ (p.lb - s % p.lb) := by
  have hlower : (i : Int) - (s / p.lb : Nat) - 1 = i - (s / p.lb + 1 : Nat) := by omega
  simp only [shlLimb, hlower]
  split
  · rename_i hr
    rw [hr, Nat.sub_zero, Nat.div_eq_of_lt (limbOrZero_lt a _)]
  · rfl

/-- R167's formula for SHR without its case of `r = 0`, where the upper neighbour's part is 0 by itself. -/
theorem shrLimb_eq {p : Params} (a : Wide p) (s i : Nat) :
    shrLimb a s i = limbOrZero a ((i : Int) + (s / p.lb : Nat)) / 2 ^ (s % p.lb) +
      limbOrZero a ((i : Int) + (s / p.lb + 1 : Nat)) * 2 ^ (p.lb - s % p.lb) % 2 ^ p.lb := by
  have hupper : (i : Int) + (s / p.lb : Nat) + 1 = i + (s / p.lb + 1 : Nat) := by omega
  simp only [shrLimb, hupper]
  split
  · rename_i hr
    rw [hr, Nat.sub_zero, Nat.mul_mod_left]
  · rfl

/-- The limbs of a value shifted left are those of R167's formula: a left shift by `s` is one by a whole limb more than
`s / LB` and a right shift by the bits that this is too many. -/
theorem limbNat_shl {p : Params} (a : Wide p) (s : Nat) {i : Nat} (hi : i < p.n) :
    limbNat (narrow p (a.toNat * 2 ^ s)) i = shlLimb a s i := by
  have hr : s % p.lb < p.lb := Nat.mod_lt _ (lb_pos p)
  have hplace : s + (p.lb - s % p.lb) = p.lb * (s / p.lb + 1) := by
    have := Nat.div_add_mod s p.lb
    rw [Nat.mul_succ]
    omega
  have hwindow : a.toNat * 2 ^ s / 2 ^ (p.lb * i) =
      a.toNat * 2 ^ (p.lb * (s / p.lb + 1)) / 2 ^ (p.lb * i) / 2 ^ (p.lb - s % p.lb) := by
    rw [Nat.div_right_comm, ← hplace, Nat.pow_add, ← Nat.mul_assoc, Nat.mul_div_cancel _ (Nat.two_pow_pos _)]
  have hnext : a.toNat * 2 ^ (p.lb * (s / p.lb + 1)) / 2 ^ (p.lb * i) / 2 ^ p.lb =
      a.toNat * 2 ^ (p.lb * (s / p.lb)) / 2 ^ (p.lb * i) := by
    rw [Nat.div_right_comm, Nat.mul_succ, Nat.pow_add, ← Nat.mul_assoc, Nat.mul_div_cancel _ (Nat.two_pow_pos _)]
  rw [limbNat_narrow p _ hi, hwindow, div_two_pow_mod_two_pow _ (Nat.sub_le _ _), hnext, Nat.sub_sub_self hr.le,
    shlLimb_eq, limbOrZero_sub a hi, limbOrZero_sub a hi, Nat.add_comm]

/-- The limbs of a value shifted right are those of R167's formula. -/
theorem limbNat_shr {p : Params} (a : Wide p) (s : Nat) {i : Nat} (hi : i < p.n) :
    limbNat (narrow p (a.toNat / 2 ^ s)) i = shrLimb a s i := by
  have hr : s % p.lb < p.lb := Nat.mod_lt _ (lb_pos p)
  have hplace : s + p.lb * i = p.lb * (i + s / p.lb) + s % p.lb := by
    have := Nat.div_add_mod s p.lb
    rw [Nat.mul_add]
    omega
  have hwindow : a.toNat / 2 ^ s / 2 ^ (p.lb * i) = a.toNat / 2 ^ (p.lb * (i + s / p.lb)) / 2 ^ (s % p.lb) := by
    rw [Nat.div_div_eq_div_mul, Nat.div_div_eq_div_mul, ← Nat.pow_add, ← Nat.pow_add, hplace]
  have hnext : a.toNat / 2 ^ (p.lb * (i + s / p.lb)) / 2 ^ p.lb = a.toNat / 2 ^ (p.lb * (i + (s / p.lb + 1))) := by
    rw [Nat.div_div_eq_div_mul, ← Nat.pow_add, ← Nat.mul_succ, Nat.add_succ]
  rw [limbNat_narrow p _ hi, hwindow, div_two_pow_mod_two_pow _ hr.le, hnext, shrLimb_eq, limbOrZero_add,
    limbOrZero_add]

/-- Settles O34: the words are those of `completes_shl` and `completes_shr`, their limbs by `limbNat_shl` and
`limbNat_shr`. -/
theorem shiftsCarryAcrossLimbs : Obligations.ShiftsCarryAcrossLimbs := by
  intro s hs
  have hflag := decide_eq_false (Nat.not_le_of_lt hs)
  refine ⟨⟨narrow s.params (s.block.lopa.toNat * 2 ^ s.block.lopb.toNat), ?shl, fun i => limbNat_shl _ _⟩,
    ⟨narrow s.params (s.block.lopa.toNat / 2 ^ s.block.lopb.toNat), ?shr, fun i => limbNat_shr _ _⟩⟩
  case shl =>
    rw [narrow_toNat, ← hflag]
    exact completes_shl s
  case shr =>
    rw [narrow_div_toNat, ← hflag]
    exact completes_shr s

end Sys2Proof.Proofs
end

section
/-! SUPPORT. NPOW2's result (45_rotate_count.md R198), and the statement of 60_exceptions.md about the host's policies
(R237, R238), which take a completed block's RES, OVF and DBZ: what each of them gives after each command it speaks
of. -/

namespace Sys2Proof.Proofs

open Sys2Proof Sys2Proof.Machine Sys2Proof.Laws

/-! ### The least power of two (R198) -/

/-- `nextPow2` gives the least power of two that is not below `a`: one place above the highest one bit of `a - 1`. -/
theorem nextPow2_isLeast (a : Nat) : IsLeastPowerOfTwo a (nextPow2 a) := by
  unfold nextPow2
  split
  · rename_i ha
    exact ⟨⟨0, rfl⟩, ha, fun k _ => Nat.one_le_two_pow⟩
  · rename_i ha
    obtain ⟨hlow, hhigh⟩ := msb_spec (v := a - 1) (by omega)
    refine ⟨⟨_, rfl⟩, by omega, fun k hk => ?_⟩
    have hlt : 2 ^ msb (a - 1) < 2 ^ k := by omega
    exact Nat.pow_le_pow_right (by decide) ((Nat.pow_lt_pow_iff_right (by decide)).1 hlt)

/-- The least power of two that is not below `a` reaches `2^w` exactly when `a` is above `2^(w-1)`. -/
theorem two_pow_le_leastPowerOfTwo_iff {a q w : Nat} (h : IsLeastPowerOfTwo a q) (hw : 0 < w) :
    2 ^ w ≤ q ↔ 2 ^ (w - 1) < a := by
  obtain ⟨⟨k, rfl⟩, hle, hleast⟩ := h
  constructor
  · intro hreach
    by_contra hfits
    have hk : k ≤ w - 1 := (Nat.pow_le_pow_iff_right (by decide)).1 (hleast _ (Nat.le_of_not_lt hfits))
    have hwk : w ≤ k := (Nat.pow_le_pow_iff_right (by decide)).1 hreach
    omega
  · intro hlt
    have hk : w - 1 < k := (Nat.pow_lt_pow_iff_right (by decide)).1 (Nat.lt_of_lt_of_le hlt hle)
    exact Nat.pow_le_pow_right (by decide) (by omega)

/-- NPOW2's OVF says that A is above 2^(W-1). -/
theorem exceedsWidth_nextPow2 (p : Params) (a : Nat) :
    exceedsWidth p (nextPow2 a) = decide (2 ^ (p.w - 1) < a) :=
  decide_eq_decide.2 (two_pow_le_leastPowerOfTwo_iff (nextPow2_isLeast a) (w_pos p))

/-- NPOW2 writes the least power of two not below A, or 0 with OVF where that does not fit (R198). -/
theorem completes_npow2 (s : State) :
    Completes .npow2 s (if 2 ^ (s.params.w - 1) < s.block.lopa.toNat then 0 else nextPow2 s.block.lopa.toNat)
      (decide (2 ^ (s.params.w - 1) < s.block.lopa.toNat)) := by
  refine completes_of_result_flag rfl ?_ (exceedsWidth_nextPow2 _ _)
  simp only [exceedsWidth_nextPow2, decide_eq_true_eq]
  split
  · rfl
  · rename_i hfits
    rw [← two_pow_le_leastPowerOfTwo_iff (nextPow2_isLeast _) (w_pos s.params)] at hfits
    exact narrow_toNat_of_lt _ (Nat.lt_of_not_le hfits)

/-! ### The policies (R237, R238) -/

/-- `policies_of_status` where OVF says whether a condition holds: for each policy, RES or what stands for OVF. -/
theorem policies_of_condition {p : Params} {b : Block p} {c : Prop} [Decidable c] (op : Instr)
    (h : b.status = { busy := false, ovf := decide c, dbz := false, ill := false }) :
    overflowingPolicy b = (b.res, decide c) ∧ checkedPolicy b = (if c then none else some b.res) ∧
    saturatingUpPolicy b = (if c then BitVec.allOnes p.w else b.res) ∧
    saturatingDownPolicy b = (if c then 0 else b.res) ∧
    barePolicy op b = (if c then .overflowPanic op else .value b.res) ∧
    checkedNextPowerOfTwo b = (if c then none else some b.res) := by
  simpa only [decide_eq_true_eq] using policies_of_status op h

/-- An exact result is clamped to 2^W - 1 by taking that where it does not fit, and else what narrowing left of it. -/
theorem saturatedUp_toNat {p : Params} {res : Wide p} {v : Nat} (h : res.toNat = v % 2 ^ p.w) :
    (if 2 ^ p.w ≤ v then BitVec.allOnes p.w else res).toNat = min v (2 ^ p.w - 1) := by
  split
  · rw [BitVec.toNat_allOnes]
    omega
  · rename_i hfits
    rw [h, Nat.mod_eq_of_lt (Nat.lt_of_not_le hfits)]
    omega

/-- The word difference is clamped to 0 by taking that where the subtraction borrows. -/
theorem saturatedDown_toNat {w : Nat} (x y : BitVec w) :
    (if x.toNat < y.toNat then 0 else x - y).toNat = x.toNat - y.toNat := by
  split
  · rename_i hborrow
    exact (Nat.sub_eq_zero_of_le hborrow.le).symm
  · rename_i hborrow
    exact BitVec.toNat_sub_of_le (Nat.le_of_not_lt hborrow)

/-- The policies after a command that narrows an exact result `v` and flags that it does not fit: ADD and MUL. -/
theorem policies_of_narrowed {i : Instr} {s : State} {v : Nat}
    (h : Completes i s (v % 2 ^ s.params.w) (decide (2 ^ s.params.w ≤ v))) :
    ∃ b : Block s.params, exec i s = .next (s.withBlock b) ∧ b.res.toNat = v % 2 ^ s.params.w ∧
      overflowingPolicy b = (b.res, decide (2 ^ s.params.w ≤ v)) ∧
      checkedPolicy b = (if 2 ^ s.params.w ≤ v then none else some b.res) ∧
      (saturatingUpPolicy b).toNat = min v (2 ^ s.params.w - 1) ∧
      barePolicy i b = (if 2 ^ s.params.w ≤ v then .overflowPanic i else .value b.res) := by
  obtain ⟨b, hexec, hres, hstatus, -⟩ := h
  obtain ⟨hoverflowing, hchecked, hup, -, hbare, -⟩ := policies_of_condition i hstatus
  exact ⟨b, hexec, hres, hoverflowing, hchecked, hup ▸ saturatedUp_toNat hres, hbare⟩

/-- The bare operator after a command that flags the condition `c`: SHL and SHR. -/
theorem barePolicy_of_completes {i : Instr} {s : State} {v : Nat} {c : Prop} [Decidable c]
    (h : Completes i s v (decide c)) :
    ∃ b : Block s.params, exec i s = .next (s.withBlock b) ∧ b.res.toNat = v ∧
      barePolicy i b = (if c then .overflowPanic i else .value b.res) := by
  obtain ⟨b, hexec, hres, hstatus, -⟩ := h
  obtain ⟨-, -, -, -, hbare, -⟩ := policies_of_condition i hstatus
  exact ⟨b, hexec, hres, hbare⟩

/-- The policies after a division: absent, or a panic for the divisor, where that is 0, and else the quotient. -/
theorem policies_of_divideBy {i : Instr} {s : State} {d : Nat} (h : exec i s = divideBy s d) :
    ∃ b : Block s.params, exec i s = .next (s.withBlock b) ∧
      (d ≠ 0 → b.res.toNat = s.block.lopa.toNat / d) ∧
      checkedPolicy b = (if d = 0 then none else some b.res) ∧
      barePolicy i b = (if d = 0 then .zeroDivisorPanic i else .value b.res) := by
  by_cases hd : d = 0
  · simp only [if_pos hd]
    exact ⟨_, signalsDbz_of_divideBy h hd, absurd hd, policies_of_dbz i rfl⟩
  · simp only [if_neg hd]
    obtain ⟨b, hexec, hres, -, hstatus, -⟩ := completesDivision_of_divideBy h hd
    obtain ⟨-, hchecked, -, -, hbare, -⟩ := policies_of_status i hstatus
    exact ⟨b, hexec, fun _ => hres, hchecked, hbare⟩

/-- The policies after SUB. -/
theorem policies_of_sub (s : State) :
    ∃ b : Block s.params, exec .sub s = .next (s.withBlock b) ∧
      b.res.toNat = (((s.block.lopa.toNat : Int) - s.block.lopb.toNat) % 2 ^ s.params.w).toNat ∧
      overflowingPolicy b = (b.res, decide (s.block.lopa.toNat < s.block.lopb.toNat)) ∧
      checkedPolicy b = (if s.block.lopa.toNat < s.block.lopb.toNat then none else some b.res) ∧
      (saturatingDownPolicy b).toNat = s.block.lopa.toNat - s.block.lopb.toNat ∧
      barePolicy .sub b =
        (if s.block.lopa.toNat < s.block.lopb.toNat then .overflowPanic .sub else .value b.res) := by
  obtain ⟨b, hexec, hres, hstatus, -⟩ := completes_sub s
  obtain ⟨hoverflowing, hchecked, -, hdown, hbare, -⟩ := policies_of_condition .sub hstatus
  refine ⟨b, hexec, hres.trans (toNat_sub_eq_emod _ _), hoverflowing, hchecked, ?_, hbare⟩
  rw [hdown, BitVec.eq_of_toNat_eq hres]
  exact saturatedDown_toNat _ _

/-- The policies after NPOW2. -/
theorem policies_of_npow2 (s : State) :
    ∃ b : Block s.params, exec .npow2 s = .next (s.withBlock b) ∧
      (s.block.lopa.toNat ≤ 2 ^ (s.params.w - 1) → IsLeastPowerOfTwo s.block.lopa.toNat b.res.toNat) ∧
      checkedNextPowerOfTwo b = (if 2 ^ (s.params.w - 1) < s.block.lopa.toNat then none else some b.res) ∧
      barePolicy .npow2 b =
        (if 2 ^ (s.params.w - 1) < s.block.lopa.toNat then .overflowPanic .npow2 else .value b.res) := by
  obtain ⟨b, hexec, hres, hstatus, -⟩ := completes_npow2 s
  obtain ⟨-, -, -, -, hbare, hchecked⟩ := policies_of_condition .npow2 hstatus
  refine ⟨b, hexec, fun hfits => ?_, hchecked, hbare⟩
  rw [hres, if_neg (Nat.not_lt_of_le hfits)]
  exact nextPow2_isLeast _

/-- Settles O60, command by command. -/
theorem hostPoliciesFollowTheFlag : Obligations.HostPoliciesFollowTheFlag := by
  intro s
  have hadd := completes_add s
  rw [BitVec.toNat_add] at hadd
  exact ⟨policies_of_narrowed hadd, policies_of_sub s, policies_of_narrowed (completes_mul s),
    barePolicy_of_completes (completes_shl s), barePolicy_of_completes (completes_shr s),
    policies_of_divideBy rfl, policies_of_divideBy rfl, policies_of_npow2 s⟩

end Sys2Proof.Proofs
end

section
/-! SUPPORT. Proofs of the statements of 45_rotate_count.md: ROL and ROR complete with the rotated word (R190 to R192);
CLZ, CTZ and POPC with counts that the limb scans give too (R193 to R195), ZCNT with the rest of W (R196); ISPOW2 with 1
exactly for a power of two (R197); NPOW2 as `completes_npow2` says (R198). -/

namespace Sys2Proof.Proofs

open Sys2Proof Sys2Proof.Machine Sys2Proof.Laws

/-! ### Rotations (R190, R191)

The formulas of R190 and R191 add the two parts of the rotated word, which have no one bit in common, so that the sum is
their bitwise or. Where the amount is 0 modulo W, one of the parts is 0 and the formulas give A itself. -/

/-- A left shift within `w` bits keeps the low `w - k` bits. -/
theorem mul_two_pow_mod_two_pow (v : Nat) {k w : Nat} (h : k ≤ w) : v * 2 ^ k % 2 ^ w = v % 2 ^ (w - k) * 2 ^ k := by
  rw [← pow_sub_mul_pow 2 h, Nat.mul_mod_mul_right]

/-- The high `k` bits of a `w`-bit value. -/
theorem div_two_pow_sub_lt {v k w : Nat} (hv : v < 2 ^ w) (h : k ≤ w) : v / 2 ^ (w - k) < 2 ^ k :=
  Nat.div_lt_of_lt_mul (by rwa [pow_sub_mul_pow 2 h])

/-- The two parts of a word rotated left by `k` have no one bit in common. -/
theorem rotated_or_eq_add {v k w : Nat} (hv : v < 2 ^ w) (h : k ≤ w) :
    v * 2 ^ k % 2 ^ w ||| v / 2 ^ (w - k) = v * 2 ^ k % 2 ^ w + v / 2 ^ (w - k) := by
  rw [mul_two_pow_mod_two_pow v h, ← Nat.shiftLeft_eq]
  exact (Nat.shiftLeft_add_eq_or_of_lt (div_two_pow_sub_lt hv h) _).symm

section rotate
variable {p : Params} (x : Wide p) (n : Nat)

theorem mod_w_le (p : Params) (n : Nat) : n % p.w ≤ p.w := (Nat.mod_lt n (w_pos p)).le

/-- R190's formula. -/
theorem rotateLeft_toNat :
    (x.rotateLeft n).toNat = x.toNat * 2 ^ (n % p.w) % 2 ^ p.w + x.toNat / 2 ^ (p.w - n % p.w) := by
  rw [BitVec.toNat_rotateLeft, Nat.shiftLeft_eq, Nat.shiftRight_eq_div_pow]
  exact rotated_or_eq_add x.isLt (mod_w_le p n)

/-- R191's formula: a rotation right by `k` swaps the parts that one left by `W - k` does. -/
theorem rotateRight_toNat :
    (x.rotateRight n).toNat = x.toNat / 2 ^ (n % p.w) + x.toNat * 2 ^ (p.w - n % p.w) % 2 ^ p.w := by
  have hparts := rotated_or_eq_add x.isLt (Nat.sub_le p.w (n % p.w))
  rw [Nat.sub_sub_self (mod_w_le p n)] at hparts
  rw [BitVec.toNat_rotateRight, Nat.shiftLeft_eq, Nat.shiftRight_eq_div_pow, Nat.or_comm, hparts, Nat.add_comm]

theorem rotateLeft_of_mod_eq_zero (h : n % p.w = 0) : x.rotateLeft n = x := by
  apply BitVec.eq_of_toNat_eq
  rw [rotateLeft_toNat, h, Nat.pow_zero, Nat.mul_one, Nat.sub_zero, Nat.mod_eq_of_lt x.isLt, Nat.div_eq_of_lt x.isLt,
    Nat.add_zero]

theorem rotateRight_of_mod_eq_zero (h : n % p.w = 0) : x.rotateRight n = x := by
  apply BitVec.eq_of_toNat_eq
  rw [rotateRight_toNat, h, Nat.pow_zero, Nat.div_one, Nat.sub_zero, Nat.mul_mod_left, Nat.add_zero]

/-- Bit `k` goes to bit `(k + n) mod W` (R190). -/
theorem rotateLeft_getLsbD_add_mod {k : Nat} (hk : k < p.w) :
    (x.rotateLeft n).getLsbD ((k + n) % p.w) = x.getLsbD k := by
  have hn : n % p.w < p.w := Nat.mod_lt n (w_pos p)
  rw [BitVec.getLsbD_rotateLeft, Nat.add_mod_eq_ite, Nat.mod_eq_of_lt hk]
  split
  · rename_i hwraps
    have hlow : k + n % p.w - p.w < n % p.w := by omega
    have hback : p.w - n % p.w + (k + n % p.w - p.w) = k := by omega
    rw [decide_eq_true hlow, cond_true, hback]
  · rename_i hstays
    have hhigh : ¬ k + n % p.w < n % p.w := by omega
    rw [decide_eq_false hhigh, decide_eq_true (Nat.lt_of_not_le hstays), cond_false, Bool.true_and, Nat.add_sub_cancel]

/-- Bit `(k + n) mod W` goes to bit `k` (R191). -/
theorem rotateRight_getLsbD {k : Nat} (hk : k < p.w) :
    (x.rotateRight n).getLsbD k = x.getLsbD ((k + n) % p.w) := by
  have hn : n % p.w < p.w := Nat.mod_lt n (w_pos p)
  rw [BitVec.getLsbD_rotateRight, Nat.add_mod_eq_ite, Nat.mod_eq_of_lt hk]
  split
  · rename_i hwraps
    have hhigh : ¬ k < p.w - n % p.w := by omega
    have hback : k - (p.w - n % p.w) = k + n % p.w - p.w := by omega
    rw [decide_eq_false hhigh, decide_eq_true hk, cond_false, Bool.true_and, hback]
  · rename_i hstays
    have hlow : k < p.w - n % p.w := by omega
    rw [decide_eq_true hlow, cond_true, Nat.add_comm]

/-- A rotation left is one right by the rest of W (R192). -/
theorem rotateRight_rest_eq_rotateLeft : x.rotateRight ((p.w - n % p.w) % p.w) = x.rotateLeft n := by
  rw [BitVec.rotateRight_mod_eq_rotateRight]
  rcases Nat.eq_zero_or_pos (n % p.w) with h | h
  · rw [rotateLeft_of_mod_eq_zero x n h, h, Nat.sub_zero, rotateRight_of_mod_eq_zero x _ (Nat.mod_self _)]
  · apply BitVec.eq_of_toNat_eq
    have hrest : (p.w - n % p.w) % p.w = p.w - n % p.w := Nat.mod_eq_of_lt (Nat.sub_lt (w_pos p) h)
    rw [rotateRight_toNat, rotateLeft_toNat, hrest, Nat.sub_sub_self (mod_w_le p n), Nat.add_comm]

end rotate

/-- ROL writes A rotated left by `s` (R190). -/
theorem completes_rol (s : State) :
    Completes .rol s (s.block.lopa.rotateLeft s.block.lopb.toNat).toNat false := by
  refine completes_of_result rfl ?_
  split
  · rename_i hk
    rw [rotateLeft_of_mod_eq_zero _ _ hk]
  · rw [← rotateLeft_toNat, narrow_toNat_of_lt _ (BitVec.isLt _)]

/-- ROR writes A rotated right by `s` (R191). -/
theorem completes_ror (s : State) :
    Completes .ror s (s.block.lopa.rotateRight s.block.lopb.toNat).toNat false := by
  refine completes_of_result rfl ?_
  split
  · rename_i hk
    rw [rotateRight_of_mod_eq_zero _ _ hk]
  · rw [← rotateRight_toNat, narrow_toNat_of_lt _ (BitVec.isLt _)]

/-- Settles O35, by `completes_rol`. -/
theorem rolResult : Obligations.RolResult :=
  ⟨fun _ => rfl, fun s => ⟨_, completes_rol s, fun _ => rotateLeft_getLsbD_add_mod _ _,
    rotateLeft_of_mod_eq_zero _ _, fun _ => rotateLeft_toNat _ _⟩⟩

/-- Settles O36, by `completes_ror`. -/
theorem rorResult : Obligations.RorResult :=
  ⟨fun _ => rfl, fun s => ⟨_, completes_ror s, fun _ => rotateRight_getLsbD _ _,
    rotateRight_of_mod_eq_zero _ _, fun _ => rotateRight_toNat _ _⟩⟩

/-! ### The number of one bits (R195, R196) -/

theorem popcount_eq_sum (w v : Nat) : popcount w v = ∑ k ∈ Finset.range w, (v.testBit k).toNat := by
  induction w with
  | zero => rfl
  | succ w ih => rw [popcount_succ, ih, Finset.sum_range_succ]

theorem popcount_eq_card (w v : Nat) :
    popcount w v = ((Finset.range w).filter fun k => v.testBit k = true).card := by
  rw [popcount_eq_sum, Finset.card_filter]
  exact Finset.sum_congr rfl fun k _ => by cases v.testBit k <;> rfl

/-- The one bits of a value are those of its low `m` bits and those above them. -/
theorem popcount_add (m l v : Nat) : popcount (m + l) v = popcount m v + popcount l (v / 2 ^ m) := by
  simp only [popcount_eq_sum, Finset.sum_range_add, Nat.testBit_div_two_pow, Nat.add_comm]

/-- Only the low `w` bits count. -/
theorem popcount_mod_two_pow (w v : Nat) : popcount w (v % 2 ^ w) = popcount w v := by
  rw [popcount_eq_sum, popcount_eq_sum]
  refine Finset.sum_congr rfl fun k hk => ?_
  rw [Nat.testBit_mod_two_pow, decide_eq_true (Finset.mem_range.1 hk), Bool.true_and]

/-- The count of a register's one bits is the sum of its limbs' counts (R195). -/
theorem limbPopcount_eq {p : Params} (a : Wide p) (k : Nat) : limbPopcount a k = popcount (p.lb * k) a.toNat := by
  induction k with
  | zero => rfl
  | succ k ih => rw [limbPopcount, ih, limbNat_eq, popcount_mod_two_pow, Nat.mul_succ, popcount_add]

theorem limbPopcount_all {p : Params} (a : Wide p) : limbPopcount a p.n = popcount p.w a.toNat := by
  rw [limbPopcount_eq, Nat.mul_comm]

/-- POPC writes the number of one bits of A (R195). -/
theorem completes_popc (s : State) : Completes .popc s (popcount s.params.w s.block.lopa.toNat) false :=
  completes_of_result rfl (narrow_count (popcount_le _ _))

/-- ZCNT writes the rest of W (R196). -/
theorem completes_zcnt (s : State) :
    Completes .zcnt s (s.params.w - popcount s.params.w s.block.lopa.toNat) false :=
  completes_of_result rfl (narrow_count (Nat.sub_le _ _))

/-- The bits that are not one are zero. -/
theorem sub_popcount_eq_card (w v : Nat) :
    w - popcount w v = ((Finset.range w).filter fun k => v.testBit k = false).card := by
  have hparts := Finset.card_filter_add_card_filter_not (s := Finset.range w) fun k => v.testBit k = true
  simp only [Bool.not_eq_true, Finset.card_range, ← popcount_eq_card] at hparts
  omega

/-- Settles O40, by `completes_popc`. -/
theorem popcResult : Obligations.PopcResult := by
  refine ⟨fun _ => rfl, fun s => ⟨?bits, ?limbs⟩⟩
  case bits => exact popcount_eq_card _ _ ▸ completes_popc s
  case limbs => exact limbPopcount_all s.block.lopa ▸ completes_popc s

/-- Settles O41, by `completes_zcnt`. -/
theorem zcntResult : Obligations.ZcntResult :=
  ⟨fun _ => rfl, fun s => ⟨sub_popcount_eq_card _ _ ▸ completes_zcnt s,
    _, _, completes_popc s, completes_zcnt s, Nat.add_sub_cancel' (popcount_le _ _)⟩⟩

/-! ### The rotate laws (R192) -/

/-- A word rotated left by `k`, as R190 writes it, has the one bits of the word: its two parts have changed places. -/
theorem popcount_rotated {v k w : Nat} (hv : v < 2 ^ w) (h : k ≤ w) :
    popcount w (v * 2 ^ k % 2 ^ w + v / 2 ^ (w - k)) = popcount w v := by
  have hlow := div_two_pow_sub_lt hv h
  have hcount (u : Nat) : popcount w u = popcount k u + popcount (w - k) (u / 2 ^ k) := by
    rw [← popcount_add, Nat.add_sub_cancel' h]
  have hcount' : popcount w v = popcount (w - k) v + popcount k (v / 2 ^ (w - k)) := by
    rw [← popcount_add, Nat.sub_add_cancel h]
  rw [mul_two_pow_mod_two_pow v h, Nat.add_comm, hcount, ← popcount_mod_two_pow k, Nat.add_mul_mod_self_right,
    Nat.mod_eq_of_lt hlow, Nat.add_mul_div_right _ _ (Nat.two_pow_pos k), Nat.div_eq_of_lt hlow, Nat.zero_add,
    popcount_mod_two_pow, hcount', Nat.add_comm]

theorem popcount_rotateLeft {p : Params} (x : Wide p) (n : Nat) :
    popcount p.w (x.rotateLeft n).toNat = popcount p.w x.toNat := by
  rw [rotateLeft_toNat, popcount_rotated x.isLt (mod_w_le p n)]

theorem popcount_rotateRight {p : Params} (x : Wide p) (n : Nat) :
    popcount p.w (x.rotateRight n).toNat = popcount p.w x.toNat := by
  have hparts := popcount_rotated x.isLt (Nat.sub_le p.w (n % p.w))
  rwa [Nat.sub_sub_self (mod_w_le p n), Nat.add_comm, ← rotateRight_toNat] at hparts

/-- `completes_ror` of operands latched at will. -/
theorem completes_ror_withLatches (s : State) (a b : Wide s.params) :
    Completes .ror (s.withLatches a b) (a.rotateRight b.toNat).toNat false :=
  completes_ror (s.withLatches a b)

/-- `completes_popc` of operands latched at will. -/
theorem completes_popc_withLatches (s : State) (a b : Wide s.params) :
    Completes .popc (s.withLatches a b) (popcount s.params.w a.toNat) false :=
  completes_popc (s.withLatches a b)

/-- Settles O37: each law is that of the rotated words. -/
theorem rotateLaws : Obligations.RotateLaws := by
  intro s
  refine ⟨⟨_, completes_rol s, ?inverse⟩, _, _, _, completes_rol s, completes_ror s, completes_popc s, ?rol, ?ror⟩
  case inverse =>
    have hror := completes_ror_withLatches s s.block.lopa
      (narrow s.params ((s.params.w - s.block.lopb.toNat % s.params.w) % s.params.w))
    rwa [narrow_count (mod_w_le _ _), rotateRight_rest_eq_rotateLeft] at hror
  case rol => exact popcount_rotateLeft _ _ ▸ completes_popc_withLatches s _ _
  case ror => exact popcount_rotateRight _ _ ▸ completes_popc_withLatches s _ _

/-! ### Leading zero bits (R193)

`W - Nat.size A` counts them, for A = 0 too. -/

theorem size_eq_msb_add_one {v : Nat} (h : v ≠ 0) : Nat.size v = msb v + 1 := by
  obtain ⟨hlow, hhigh⟩ := msb_spec h
  exact Nat.le_antisymm (Nat.size_le.2 hhigh) (Nat.lt_size.2 hlow)

theorem size_of_isHighestOne {v k : Nat} (h : IsHighestOne v k) : Nat.size v = k + 1 := by
  obtain ⟨hone, habove⟩ := h
  exact Nat.le_antisymm (Nat.size_le.2 (Nat.lt_pow_two_of_testBit v habove))
    (Nat.lt_size.2 (Nat.ge_two_pow_of_testBit hone))

/-- Digits below a digit that is not 0 do not change where the highest one bit stands. -/
theorem size_add_mul_two_pow {x l m : Nat} (hx : x < 2 ^ m) (hl : l ≠ 0) :
    Nat.size (x + l * 2 ^ m) = Nat.size l + m := by
  have hsize : Nat.size (l * 2 ^ m) = Nat.size l + m := by rw [← Nat.shiftLeft_eq, Nat.size_shiftLeft hl]
  apply Nat.le_antisymm
  · rw [Nat.size_le, Nat.pow_add]
    calc x + l * 2 ^ m < (l + 1) * 2 ^ m := by rw [Nat.succ_mul]; omega
      _ ≤ 2 ^ Nat.size l * 2 ^ m := Nat.mul_le_mul_right _ (Nat.lt_size_self l)
  · rw [← hsize]
    exact Nat.size_le_size (Nat.le_add_left _ _)

/-- The scan over the limbs below `k` counts the leading zeros of the value below limb `k`. -/
theorem leadingZeroScan_eq {p : Params} (a : Wide p) (k : Nat) :
    leadingZeroScan a k = p.lb * k - Nat.size (a.toNat % 2 ^ (p.lb * k)) := by
  induction k with
  | zero => exact (Nat.zero_sub _).symm
  | succ k ih =>
    have hlow : a.toNat % 2 ^ (p.lb * k) < 2 ^ (p.lb * k) := Nat.mod_lt _ (Nat.two_pow_pos _)
    have hsize := Nat.size_le.2 hlow
    rw [leadingZeroScan, mod_limb_succ, Nat.mul_succ]
    split
    · rename_i hzero
      rw [ih, hzero, Nat.zero_mul, Nat.add_zero]
      omega
    · rename_i hne
      rw [size_add_mul_two_pow hlow hne, size_eq_msb_add_one hne]
      omega

theorem leadingZeroScan_all {p : Params} (a : Wide p) : leadingZeroScan a p.n = p.w - Nat.size a.toNat := by
  rw [leadingZeroScan_eq, mod_all_limbs, Nat.mul_comm]

/-- CLZ writes the number of leading zero bits of A (R193). -/
theorem completes_clz (s : State) : Completes .clz s (s.params.w - Nat.size s.block.lopa.toNat) false := by
  refine completes_of_result rfl ?_
  split
  · rename_i hzero
    have ha : s.block.lopa.toNat = 0 := hzero
    rw [narrow_count le_rfl, ha, Nat.size_zero, Nat.sub_zero]
  · rename_i hne
    rw [narrow_count (by omega), size_eq_msb_add_one hne]
    omega

/-- Settles O38, by `completes_clz`. -/
theorem clzResult : Obligations.ClzResult := by
  refine ⟨fun _ => rfl, fun s => ⟨?scan, fun hzero => ?zero, fun k hk => ?highest⟩⟩
  all_goals have h := completes_clz s
  case scan => rwa [← leadingZeroScan_all] at h
  case zero => rwa [hzero, Nat.size_zero, Nat.sub_zero] at h
  case highest => rwa [size_of_isHighestOne hk, Nat.add_comm, ← Nat.sub_sub] at h

/-! ### Trailing zero bits (R194)

`lsb W A` counts them, for A = 0 too. -/

theorem lsb_spec (w v : Nat) :
    (∀ j, j < lsb w v → v.testBit j = false) ∧ (lsb w v < w → v.testBit (lsb w v) = true) := by
  rcases lowestBitFrom_cases v w 0 with ⟨hnone, hend⟩ | ⟨-, -, hone, hbelow⟩
  · rw [Nat.zero_add] at hend hnone
    rw [lsb, hend]
    exact ⟨fun j => hnone j (Nat.zero_le j), fun h => absurd h (Nat.lt_irrefl w)⟩
  · exact ⟨fun j => hbelow j (Nat.zero_le j), fun _ => hone⟩

/-- Only one number is as `lsb_spec` says. -/
theorem lsb_eq_of_spec {w v k : Nat} (hk : k ≤ w) (hbelow : ∀ j, j < k → v.testBit j = false)
    (hone : k < w → v.testBit k = true) : lsb w v = k := by
  obtain ⟨hbelow', hone'⟩ := lsb_spec w v
  have hle := lsb_le w v
  rcases Nat.lt_trichotomy (lsb w v) k with h | h | h
  · exact absurd (hone' (by omega)) (by simp [hbelow _ h])
  · exact h
  · exact absurd (hone (by omega)) (by simp [hbelow' _ h])

theorem lsb_zero (w : Nat) : lsb w 0 = w :=
  lsb_eq_of_spec le_rfl (fun j _ => Nat.zero_testBit j) fun h => absurd h (Nat.lt_irrefl w)

theorem lt_width_of_testBit {w v j : Nat} (hv : v < 2 ^ w) (h : v.testBit j = true) : j < w :=
  (Nat.pow_lt_pow_iff_right (by decide)).1 ((Nat.ge_two_pow_of_testBit h).trans_lt hv)

theorem lsb_of_isLowestOne {w v k : Nat} (hv : v < 2 ^ w) (h : IsLowestOne v k) : lsb w v = k := by
  obtain ⟨hone, hbelow⟩ := h
  exact lsb_eq_of_spec (lt_width_of_testBit hv hone).le hbelow fun _ => hone

theorem lsb_lt_of_ne_zero {w v : Nat} (hv : v < 2 ^ w) (h : v ≠ 0) : lsb w v < w := by
  obtain ⟨j, hj⟩ := Nat.exists_testBit_of_ne_zero h
  obtain ⟨hbelow, -⟩ := lsb_spec w v
  have hle : lsb w v ≤ j := Nat.le_of_not_lt fun hlt => by simp [hbelow j hlt] at hj
  exact hle.trans_lt (lt_width_of_testBit hv hj)

/-- The search goes on above the low `m` bits where those are all 0, and otherwise ends among them. -/
theorem lsb_add (m l v : Nat) :
    lsb (m + l) v = if v % 2 ^ m = 0 then m + lsb l (v / 2 ^ m) else lsb m (v % 2 ^ m) := by
  have hmod {j : Nat} (hj : j < m) : (v % 2 ^ m).testBit j = v.testBit j := by
    rw [Nat.testBit_mod_two_pow, decide_eq_true hj, Bool.true_and]
  split
  · rename_i hzero
    obtain ⟨hbelow, hone⟩ := lsb_spec l (v / 2 ^ m)
    have hle := lsb_le l (v / 2 ^ m)
    refine lsb_eq_of_spec (by omega) (fun j hj => ?_) fun h => ?_
    · rcases Nat.lt_or_ge j m with hjm | hjm
      · rw [← hmod hjm, hzero, Nat.zero_testBit]
      · obtain ⟨i, rfl⟩ := Nat.exists_eq_add_of_le' hjm
        rw [← Nat.testBit_div_two_pow]
        exact hbelow i (by omega)
    · rw [Nat.add_comm, ← Nat.testBit_div_two_pow]
      exact hone (by omega)
  · rename_i hne
    obtain ⟨hbelow, hone⟩ := lsb_spec m (v % 2 ^ m)
    have hlt : lsb m (v % 2 ^ m) < m := lsb_lt_of_ne_zero (Nat.mod_lt _ (Nat.two_pow_pos m)) hne
    exact lsb_eq_of_spec (by omega) (fun j hj => hmod (hj.trans hlt) ▸ hbelow j hj) fun _ => hmod hlt ▸ hone hlt

/-- The scan over the `fuel` limbs from limb `k` up counts the trailing zeros of the value they make. -/
theorem trailingZeroScan_eq {p : Params} (a : Wide p) (fuel k : Nat) :
    trailingZeroScan a fuel k = lsb (p.lb * fuel) (a.toNat / 2 ^ (p.lb * k)) := by
  induction fuel generalizing k with
  | zero => rfl
  | succ fuel ih =>
    rw [trailingZeroScan, ih, Nat.mul_succ p.lb fuel, Nat.add_comm (p.lb * fuel), lsb_add, ← limbNat_eq,
      Nat.div_div_eq_div_mul, ← Nat.pow_add, ← Nat.mul_succ]

theorem trailingZeroScan_all {p : Params} (a : Wide p) : trailingZeroScan a p.n 0 = lsb p.w a.toNat := by
  rw [trailingZeroScan_eq, Nat.mul_zero, Nat.pow_zero, Nat.div_one, Nat.mul_comm]

/-- CTZ writes the number of trailing zero bits of A (R194). -/
theorem completes_ctz (s : State) : Completes .ctz s (lsb s.params.w s.block.lopa.toNat) false := by
  refine completes_of_result rfl ?_
  split
  · rename_i hzero
    have ha : s.block.lopa.toNat = 0 := hzero
    rw [narrow_count le_rfl, ha, lsb_zero]
  · exact narrow_count (lsb_le _ _)

/-- Settles O39, by `completes_ctz`. -/
theorem ctzResult : Obligations.CtzResult := by
  refine ⟨fun _ => rfl, fun s => ⟨?scan, fun hzero => ?zero, fun k hk => ?lowest⟩⟩
  all_goals have h := completes_ctz s
  case scan => rwa [← trailingZeroScan_all] at h
  case zero => rwa [hzero, lsb_zero] at h
  case lowest => rwa [lsb_of_isLowestOne s.block.lopa.isLt hk] at h

/-! ### Powers of two (R197, R198)

R197's test counts one bits, and so do both of its readings: a count of 1 has one term 1 and the others 0, whether its
terms are the bits of A or the counts of A's limbs. -/

theorem sum_range_eq_one_iff (n : Nat) (f : Nat → Nat) :
    ∑ k ∈ Finset.range n, f k = 1 ↔ ∃ i, i < n ∧ f i = 1 ∧ ∀ j, j < n → j ≠ i → f j = 0 := by
  constructor
  · intro hsum
    obtain ⟨i, hi, hne⟩ := Finset.exists_ne_zero_of_sum_ne_zero (hsum ▸ Nat.one_ne_zero)
    have hsplit := Finset.add_sum_erase (Finset.range n) f hi
    have hrest : ∑ k ∈ (Finset.range n).erase i, f k = 0 := by omega
    refine ⟨i, Finset.mem_range.1 hi, by omega, fun j hj hji => ?_⟩
    exact Finset.sum_eq_zero_iff.1 hrest j (Finset.mem_erase.2 ⟨hji, Finset.mem_range.2 hj⟩)
  · rintro ⟨i, hi, hone, hothers⟩
    rw [← hone]
    exact Finset.sum_eq_single_of_mem i (Finset.mem_range.2 hi) fun j hj => hothers j (Finset.mem_range.1 hj)

theorem limbPopcount_eq_sum {p : Params} (a : Wide p) (k : Nat) :
    limbPopcount a k = ∑ i ∈ Finset.range k, popcount p.lb (limbNat a i) := by
  induction k with
  | zero => rfl
  | succ k ih => rw [limbPopcount, ih, Finset.sum_range_succ]

section popcount
variable {w v : Nat} (hv : v < 2 ^ w)
include hv

theorem popcount_eq_zero_iff : popcount w v = 0 ↔ v = 0 := by
  simp only [popcount_eq_sum, Finset.sum_eq_zero_iff, Finset.mem_range, Bool.toNat_eq_zero]
  constructor
  · intro hzero
    refine Nat.zero_of_testBit_eq_false fun j => Bool.eq_false_iff.2 fun hj => ?_
    simp [hzero j (lt_width_of_testBit hv hj)] at hj
  · rintro rfl j -
    exact Nat.zero_testBit j

/-- A value has exactly one one bit when it is a power of two. -/
theorem popcount_eq_one_iff : popcount w v = 1 ↔ IsPowerOfTwo v := by
  simp only [popcount_eq_sum, sum_range_eq_one_iff, Bool.toNat_eq_one, Bool.toNat_eq_zero]
  constructor
  · rintro ⟨i, -, hone, hothers⟩
    refine ⟨i, Nat.eq_of_testBit_eq fun j => ?_⟩
    rcases eq_or_ne j i with rfl | hji
    · rw [hone, Nat.testBit_two_pow_self]
    · rw [Nat.testBit_two_pow_of_ne hji.symm]
      refine Bool.eq_false_iff.2 fun hj => ?_
      simp [hothers j (lt_width_of_testBit hv hj) hji] at hj
  · rintro ⟨i, rfl⟩
    exact ⟨i, (Nat.pow_lt_pow_iff_right (by decide)).1 hv, Nat.testBit_two_pow_self,
      fun j _ hji => Nat.testBit_two_pow_of_ne hji.symm⟩

end popcount

/-- One limb of A is a power of two and the others are 0 exactly when A has one one bit. -/
theorem popcount_eq_one_iff_limbs {p : Params} (a : Wide p) :
    popcount p.w a.toNat = 1 ↔ ∃ i, i < p.n ∧ IsPowerOfTwo (limbNat a i) ∧
      ∀ j, j < p.n → j ≠ i → limbNat a j = 0 := by
  rw [← limbPopcount_all, limbPopcount_eq_sum, sum_range_eq_one_iff]
  simp only [popcount_eq_one_iff (limbNat_lt a _), popcount_eq_zero_iff (limbNat_lt a _)]

/-- ISPOW2 writes whether A has exactly one one bit (R197). -/
theorem completes_ispow2 (s : State) :
    Completes .ispow2 s (if popcount s.params.w s.block.lopa.toNat = 1 then 1 else 0) false := by
  refine completes_of_result rfl (narrow_count ?_)
  split
  · exact w_pos _
  · exact Nat.zero_le _

/-- Settles O42, by `completes_ispow2`. -/
theorem ispow2Result : Obligations.Ispow2Result := by
  refine ⟨fun _ => rfl, fun s => ⟨_, completes_ispow2 s, (ite_eq_or_eq _ _ _).symm, ?_⟩⟩
  have hone : (if popcount s.params.w s.block.lopa.toNat = 1 then 1 else 0) = 1 ↔
      popcount s.params.w s.block.lopa.toNat = 1 := by simp
  exact ⟨hone, hone.trans (popcount_eq_one_iff s.block.lopa.isLt), hone.trans (popcount_eq_one_iff_limbs _)⟩

/-- Settles O43, by `completes_npow2`. -/
theorem npow2Result : Obligations.Npow2Result := by
  refine ⟨fun _ => rfl, fun s => ⟨fun habove => ?overflows, fun hfits => ⟨_, nextPow2_isLeast _, ?fits⟩⟩⟩
  all_goals have h := completes_npow2 s
  case overflows => rwa [if_pos habove, decide_eq_true habove] at h
  case fits =>
    have hnot := Nat.not_lt_of_le hfits
    rwa [if_neg hnot, decide_eq_false hnot] at h

end Sys2Proof.Proofs
end

section
/-! SUPPORT. Proof of the statement of 70_reset_and_hazards.md: a command in flight completes (R270, R271). -/

namespace Sys2Proof.Proofs

open Sys2Proof Sys2Proof.Machine Sys2Proof.Laws

/-- The unit's move while BUSY is 1, at its turn or where `sched` is empty, clears BUSY (R27). -/
theorem step_clears_busy {s : State} {turns : List Turn} (hbusy : s.block.status.busy = true)
    (hsched : s.sched = .unit :: turns ∨ s.sched = [] ∧ turns = []) :
    ∃ t : State, step s = .next t ∧ t.block.status.busy = false := by
  obtain ⟨res, rem, ovf, dbz, ill, hunit, -⟩ := unitStep_next { s with sched := turns }
  exact ⟨_, (step_eq_unitStep hbusy hsched).trans hunit, rfl⟩

/-- The host's turn while BUSY is 1 leaves the command in flight and the later turns to come (R57). -/
theorem step_hostTurn_keeps_busy {s : State} {turns : List Turn} (hbusy : s.block.status.busy = true)
    (hsched : s.sched = .host :: turns) :
    ∃ t : State, step s = .next t ∧ t.block.status.busy = true ∧ t.sched = turns := by
  obtain ⟨held, script, reads, hhost⟩ := hostStep_of_busy (s := { s with sched := turns }) hbusy
  exact ⟨_, (step_of_turn hsched).trans (congrArg Host.Outcome.next hhost), hbusy, rfl⟩

/-- Settles O53, by induction on `sched`: a host turn leaves the command in flight with one turn fewer to come, and the
unit completes it at its turn or where `sched` is empty. -/
theorem issuedCommandCompletes : Obligations.IssuedCommandCompletes := by
  intro s hbusy hreset
  induction hsched : s.sched generalizing s with
  | nil =>
    obtain ⟨t, hstep, hidle⟩ := step_clears_busy hbusy (.inr ⟨hsched, rfl⟩)
    exact ⟨1, t, Nat.le_refl 1, run_succ_of_step 0 hstep, hidle⟩
  | cons turn turns ih =>
    rw [hsched, List.forall_mem_cons] at hreset
    obtain ⟨hturn, hturns⟩ := hreset
    cases turn with
    | host =>
      obtain ⟨u, hstep, hbusy', hsched'⟩ := step_hostTurn_keeps_busy hbusy hsched
      obtain ⟨k, t, hk, hrun, hidle⟩ := ih u hbusy' (hsched' ▸ hturns) hsched'
      exact ⟨k + 1, t, Nat.succ_le_succ hk, (run_succ_of_step k hstep).trans hrun, hidle⟩
    | unit =>
      obtain ⟨t, hstep, hidle⟩ := step_clears_busy hbusy (.inl hsched)
      exact ⟨1, t, Nat.le_add_left 1 _, run_succ_of_step 0 hstep, hidle⟩
    | reset => exact absurd rfl hturn

end Sys2Proof.Proofs
end
